-- ==== Sys2Proof/Word.lean ====
section
/-! DEFINITION. The word types of the CRC16-SLOT core: u8, u16 and u32 of 00_scope.md rule R4. Bit 0 is the least
significant bit of every value. -/

namespace Sys2Proof

/-- `u8` (00_scope.md R4): a byte of a key, a table index, IMM8. -/
abbrev Byte := BitVec 8

/-- `u16` (00_scope.md R4): the checksum register and a table entry. -/
abbrev Half := BitVec 16

/-- `u32` (00_scope.md R4): a host register, a command word, a key-memory address. -/
abbrev Word := BitVec 32

end Sys2Proof
end

