-- ==== Sys2Proof/Config.lean ====
section
/-! DEFINITION. The parameters of 00_scope.md rule R3 that are fixed for this hardware. The two parameters that are the
platform's, `admitted` and `mem`, are plain data in the state (`State.mem`). The spec leaves no value open, so there is
no free value here. -/

namespace Sys2Proof

/-- NSLOTS, the slot count: 16384 for this hardware (00_scope.md R3, D16). -/
def Config.nslots : Nat := 16384

/-- POLY, the generator polynomial without its implicit x^16 term (00_scope.md R2, R3). -/
def Config.poly : Half := 0x1021#16

/-- CRC_INIT, the initial value of the checksum register (00_scope.md R2, R3). -/
def Config.crcInit : Half := 0x0000#16

/-- TAG_OPEN, the byte of the opening brace (00_scope.md R3; 42_hashtag.md R130, D19). -/
def Config.tagOpen : Byte := 0x7B#8

/-- TAG_CLOSE, the byte of the closing brace (00_scope.md R3; 42_hashtag.md R130, D19). -/
def Config.tagClose : Byte := 0x7D#8

end Sys2Proof
end

