-- ==== Sys2Proof/Syntax.lean ====
section
/-! DEFINITION. The command set of 30_encoding.md rule R75: one constructor per row of spec/opcode_table.json. -/

namespace Sys2Proof

/-- A command of the CRC16-SLOT command set version 1 (30_encoding.md R75). IMM8 is a u8 (R74), so every term of this type
is a well-formed command; which WORDS are commands is `wordLegal` of WellFormed.lean. -/
inductive Instr where
  /-- TBLRD i, OPC 0x01: read table entry i (40_table.md R102). -/
  | tblrd (i : Byte)
  /-- CRCCLR, OPC 0x02: clear the checksum register (41_crc.md R112). -/
  | crcclr
  /-- CRCUPD b, OPC 0x03: fold one byte (41_crc.md R113). -/
  | crcupd (b : Byte)
  /-- CHKSUM, OPC 0x04: checksum of the key in memory (41_crc.md R114). -/
  | chksum
  /-- TAGEXT, OPC 0x05: effective key of the key in memory (42_hashtag.md R131). -/
  | tagext
  /-- SLOTRED, OPC 0x06: reduce the checksum register (43_slot.md R141). -/
  | slotred
  /-- KEYSLOT, OPC 0x07: slot of the key in memory (43_slot.md R142). -/
  | keyslot
deriving DecidableEq, Repr

end Sys2Proof
end

