-- ==== Sys2Proof/WellFormed.lean ====
section
/-! DEFINITION. The checks the spec makes on data before it means anything: a command word (30_encoding.md R76), the slot
count of a configuration (00_scope.md R3), the operands of assembler text (R79, R80). A term of `Instr` needs no check:
its only operand is a u8. -/

namespace Sys2Proof

/-- OPC is 0x00 or 0x08 to 0xFF: no command has it (30_encoding.md R76, items 1 and 2). -/
def opcUnassigned (w : Word) : Bool :=
  (w.extractLsb' 24 8).toNat == 0 || 8 ≤ (w.extractLsb' 24 8).toNat

/-- RSV is not 0 (30_encoding.md R76, item 3). -/
def rsvNonzero (w : Word) : Bool := w.extractLsb' 8 16 != 0#16

/-- OPC is that of a command with no operand, and IMM8 is not 0 (30_encoding.md R76, item 4). -/
def immNotAllowed (w : Word) : Bool :=
  [2, 4, 5, 6, 7].contains (w.extractLsb' 24 8).toNat && w.extractLsb' 0 8 != 0#8

/-- The word is none of those that 30_encoding.md R76 lists as illegal. -/
def wordLegal (w : Word) : Bool := !(opcUnassigned w || rsvNonzero w || immNotAllowed w)

/-- A slot count for which hardware is built (00_scope.md R3): 1 <= NSLOTS <= 65536. -/
def nslotsLegal (n : Nat) : Bool := 1 ≤ n && n ≤ 65536

/-- An `<imm8>` the assembler accepts (30_encoding.md R79): 0 to 255. -/
def imm8Legal (n : Nat) : Bool := n < 2 ^ 8

/-- An `<imm32>` that is a u32 (30_encoding.md R80). That a larger number is an assembly error is a DESIGN CHOICE (log 11). -/
def imm32Legal (n : Nat) : Bool := n < 2 ^ 32

/-- An offset an access can name (10_state.md R34): the window is 64 bytes. -/
def offsetLegal (n : Nat) : Bool := n < 2 ^ 6

end Sys2Proof
end

