-- ==== Sys2Proof/Decode.lean ====
section
/-! DEFINITION. The decoder of 30_encoding.md rule R75, total on every u32 and rejecting by name, and after it the encoder of
rule R79. -/

namespace Sys2Proof

/-- OPC, bits [31:24] of a command word (30_encoding.md R70). -/
def fieldOpc (w : Word) : Byte := w.extractLsb' 24 8

/-- RSV, bits [23:8] of a command word (30_encoding.md R70). -/
def fieldRsv (w : Word) : Half := w.extractLsb' 8 16

/-- IMM8, bits [7:0] of a command word (30_encoding.md R70). -/
def fieldImm8 (w : Word) : Byte := w.extractLsb' 0 8

/-- Why a word decodes to ILLEGAL (30_encoding.md R75, R76). The hardware raises ILLEGAL_CMD for all three alike. -/
inductive Illegal where
  /-- RSV is not 0 (R76 item 3). -/
  | rsvNonzero
  /-- IMM8 is not 0 in a command with no operand (R76 item 4). -/
  | immNonzero
  /-- No command has this OPC (R76 items 1 and 2). -/
  | opcUnassigned
deriving DecidableEq, Repr

/-- A command with no operand: legal only with IMM8 = 0 (30_encoding.md R75). -/
def decodeNoOperand (w : Word) (i : Instr) : Except Illegal Instr :=
  if fieldImm8 w = 0#8 then .ok i else .error .immNonzero

/-- The decoder (30_encoding.md R75): every u32 is exactly one command or ILLEGAL. OPC is read as an unsigned number (R72). -/
def decode (w : Word) : Except Illegal Instr :=
  if fieldRsv w ≠ 0#16 then .error .rsvNonzero
  else match (fieldOpc w).toNat with
    | 0x01 => .ok (.tblrd (fieldImm8 w))
    | 0x02 => decodeNoOperand w .crcclr
    | 0x03 => .ok (.crcupd (fieldImm8 w))
    | 0x04 => decodeNoOperand w .chksum
    | 0x05 => decodeNoOperand w .tagext
    | 0x06 => decodeNoOperand w .slotred
    | 0x07 => decodeNoOperand w .keyslot
    | _ => .error .opcUnassigned

/-- The instruction that the table's numbering of its bits gives: the one command word, bit 0 its least significant
(30_encoding.md R70, R78: one format, 32 bits). A number of more bits than the word is no command word. -/
def decodeTableWord (nbits w : Nat) : Option Instr :=
  if w % 2 ^ nbits < 2 ^ 32 then (decode (BitVec.ofNat 32 (w % 2 ^ nbits))).toOption else none

/-- OPC of a command (30_encoding.md R75). -/
def opcOf : Instr → Byte
  | .tblrd _ => 0x01#8
  | .crcclr => 0x02#8
  | .crcupd _ => 0x03#8
  | .chksum => 0x04#8
  | .tagext => 0x05#8
  | .slotred => 0x06#8
  | .keyslot => 0x07#8

/-- IMM8 of a command: its operand, or 0 (30_encoding.md R70). -/
def imm8Of : Instr → Byte
  | .tblrd i => i
  | .crcclr => 0x00#8
  | .crcupd b => b
  | .chksum => 0x00#8
  | .tagext => 0x00#8
  | .slotred => 0x00#8
  | .keyslot => 0x00#8

/-- The encoder: `(OPC << 24) | imm8` (30_encoding.md R79). -/
def encode (i : Instr) : Word :=
  ((opcOf i).setWidth 32 <<< 24) ||| (imm8Of i).setWidth 32

end Sys2Proof
end

