-- ==== Sys2Proof/Machine/State.lean ====
section
/-! DEFINITION. The state of the machine as plain data: the core's registers (10_state.md R20), the platform's key memory
(20_memory.md R51), the host's moves still to come (60_exceptions.md R164, R166) and the values the host has read (70 R191);
the state after reset (10_state.md R37). -/

namespace Sys2Proof.Machine

/-- The registers of the window (the map of 10_state.md R23). -/
inductive Reg where
  | cmd | addr | len | crc | result | ekoff | eklen | status | finfo | nslots
deriving DecidableEq, Repr

/-- A host access, the tuple (kind, offset, size, data) of 10_state.md R23 and 30_encoding.md R71. The offset lies in the
64-byte window (R34); the size is any number the platform bus can express (R71); only a write carries data. -/
inductive Access where
  /-- RD: the host gets a u32 back. -/
  | rd (offset : BitVec 6) (size : Nat)
  /-- WR of `data`. -/
  | wr (offset : BitVec 6) (size : Nat) (data : Word)
deriving DecidableEq, Repr

/-- One move of the machine's surroundings, in the one total order of 20_memory.md R61. -/
inductive Event where
  /-- A host access, and the bytes of key memory that other agents write from its start to its completion
  (20_memory.md R55, R62, R67), in order. -/
  | access (a : Access) (during : List (Word × Byte))
  /-- RESET, asserted by the host between two accesses (70_reset_and_hazards.md R181). -/
  | reset
  /-- From here on the platform's key memory is this: the listed addresses are admitted and hold the listed bytes (a later
  entry for an address wins), no other address is admitted. `mem` and `admitted` are fixed for each CMD write
  (70_reset_and_hazards.md R190), so they change between accesses only. -/
  | platform (cells : List (Word × Byte))
deriving DecidableEq, Repr

/-- The fault causes of 60_exceptions.md R150. -/
inductive FaultCause where
  | illegalCmd | lenNegative | region | bus
deriving DecidableEq, Repr

/-- Key memory (20_memory.md R51): address and byte, addresses strictly rising (`Memory.wf`). An address is admitted exactly
when it is listed; an unlisted address has no value (log 3). -/
abbrev Memory := List Host.Cell

/-- Nothing stops the machine with a fault of the interface: every fault of the spec is recorded in STATUS and FINFO and
leaves a next state (60_exceptions.md R151; log 9). -/
inductive Fault where
deriving DecidableEq, Repr

/-- Why a step is given no meaning. -/
inductive Refusal where
  /-- Raised by an arm of `exec` whose instruction has no meaning yet; no arm answers with it. Safe. -/
  | notModelled (mnemonic : String)
  /-- Raised by `performEvent`: another agent writes the byte at address `a` of the region of the command in progress. The
  model gives such a run no meaning (20_memory.md R67; 93_implementation_defined.md U3). Safe: no claim about it can be proved. -/
  | regionWritten (a : Word)
deriving DecidableEq, Repr

/-- The state. The first eight fields are the registers of 10_state.md R20. TABLE and NSLOTS are constants (logs 1, 2). -/
structure State where
  /-- CRC, the checksum register (10_state.md R24). -/
  crc : Half
  /-- ADDR, the base address of the key (10_state.md R25). -/
  addr : Word
  /-- LEN, the length of the key, two's complement (10_state.md R26). -/
  len : Word
  /-- RESULT, the result of the last command that completed (10_state.md R27). -/
  result : Word
  /-- EKOFF, the offset of the effective key (10_state.md R28). -/
  ekoff : Word
  /-- EKLEN, the length of the effective key (10_state.md R29). -/
  eklen : Word
  /-- STATUS: FAULT bit 0, TAG bit 1, FCAUSE bits 7..4 (10_state.md R30); its accessors are in Flags.lean. -/
  status : Word
  /-- FINFO, information about the first fault (10_state.md R31). -/
  finfo : Word
  /-- The platform's key memory (20_memory.md R51). -/
  mem : Memory
  /-- The moves still to come, the next one first (60_exceptions.md R164, R166; log 4). -/
  pending : List Event
  /-- The values the host's RD accesses have returned, the oldest first (70_reset_and_hazards.md R191; log 5). -/
  reads : List Word
deriving DecidableEq, Repr

/-- The machine right after reset (10_state.md R37, 70_reset_and_hazards.md R180): every register 0, nothing listed in key
memory, no move placed, nothing read yet. -/
def State.reset : State where
  crc := 0x0000#16
  addr := 0x00000000#32
  len := 0x00000000#32
  result := 0x00000000#32
  ekoff := 0x00000000#32
  eklen := 0x00000000#32
  status := 0x00000000#32
  finfo := 0x00000000#32
  mem := []
  pending := []
  reads := []

end Sys2Proof.Machine
end

