-- ==== Sys2Proof/Machine/Flags.lean ====
section
/-! DEFINITION. The fields of STATUS (10_state.md R30), the core's only flags: FAULT bit 0, TAG bit 1, FCAUSE bits 7..4;
bits 3, 2 and 31..8 are reserved and read 0. -/

namespace Sys2Proof.Machine

/-- FAULT, bit 0 of STATUS (10_state.md R30). -/
def statusFault (w : Word) : Bool := w.getLsbD 0

/-- TAG, bit 1 of STATUS (10_state.md R30). -/
def statusTag (w : Word) : Bool := w.getLsbD 1

/-- FCAUSE, bits [7:4] of STATUS (10_state.md R30). -/
def statusCause (w : Word) : BitVec 4 := w.extractLsb' 4 4

/-- The bits of STATUS that are fields; every other bit is reserved (10_state.md R30). -/
def statusFields : Word := 0x000000F3#32

/-- STATUS as a read returns it: the reserved bits read 0 (10_state.md R30). -/
def statusRead (w : Word) : Word := w &&& statusFields

/-- STATUS with FAULT = 1 and FCAUSE = c, the other bits kept (60_exceptions.md R151). -/
def statusWithFault (w : Word) (c : BitVec 4) : Word :=
  (w &&& ~~~0x000000F1#32) ||| (c.setWidth 32 <<< 4) ||| 0x00000001#32

/-- STATUS with TAG = t, the other bits kept (42_hashtag.md R131, 43_slot.md R142). -/
def statusWithTag (w : Word) (t : Bool) : Word :=
  (w &&& ~~~0x00000002#32) ||| (if t then 0x00000002#32 else 0x00000000#32)

/-- The code of a cause in FCAUSE (60_exceptions.md R150). -/
def causeCode : FaultCause → BitVec 4
  | .illegalCmd => 1#4
  | .lenNegative => 2#4
  | .region => 3#4
  | .bus => 4#4

end Sys2Proof.Machine
end

