-- ==== Sys2Proof/Machine/Ops.lean ====
section
/-! DEFINITION. The operations over key memory (20_memory.md) and the registers (10_state.md), raising a fault
(60_exceptions.md R151) and, beside it, the only way back from one: reset (R155; 70_reset_and_hazards.md R180). -/

namespace Sys2Proof.Machine

/-! ## Key memory -/

/-- The canonical form of key memory: addresses strictly rising, all below 2^32 (20_memory.md R51). An unlisted address
reads as no value, so no entry can equal one. -/
abbrev Memory.wf (m : Memory) : Prop :=
  m.Pairwise (fun c d => c.1 < d.1) ∧ ∀ c ∈ m, c.1 < 2 ^ 32

/-- The byte at the unbounded address `a`, or none where no byte exists or may be read: addresses of 2^32 and above
(20_memory.md R54) and unlisted ones (log 3). -/
def Memory.byte? (m : Memory) (a : Nat) : Option Byte :=
  if a < 2 ^ 32 then m.lookup a else none

/-- `admitted` (20_memory.md R51): the address exists and may be read. -/
def Memory.admitted (m : Memory) (a : Word) : Bool := (m.byte? a.toNat).isSome

/-- Puts one cell in its place in a list of rising addresses. -/
def insertCell (a : Nat) (b : Byte) : Memory → Memory
  | [] => [(a, b)]
  | c :: m =>
    if a < c.1 then (a, b) :: c :: m
    else if a = c.1 then (a, b) :: m
    else c :: insertCell a b m

/-- The platform's memory with address `a` admitted and holding `b`. -/
def Memory.write (m : Memory) (a : Word) (b : Byte) : Memory := insertCell a.toNat b m

/-- Another agent writes a byte (20_memory.md R62). It changes what the core can read only at an admitted address. -/
def Memory.store (m : Memory) (a : Word) (b : Byte) : Memory :=
  if m.admitted a then m.write a b else m

/-- Several such writes, in order. -/
def Memory.storeAll (m : Memory) (cells : List (Word × Byte)) : Memory :=
  cells.foldl (fun m c => m.store c.1 c.2) m

/-- The key memory in which exactly the listed addresses are admitted; a later entry for an address wins. -/
def Memory.ofCells (cells : List (Word × Byte)) : Memory :=
  cells.foldl (fun m c => m.write c.1 c.2) []

/-! ## Registers -/

/-- FAULT is set: the core is halted (60_exceptions.md R153). -/
def State.halted (s : State) : Bool := statusFault s.status

/-- RESULT <- v. -/
def State.writeResult (s : State) (v : Word) : State := { s with result := v }

/-- CRC <- c and RESULT <- zext_32(c) (41_crc.md R112 to R114). -/
def State.writeChecksum (s : State) (c : Half) : State :=
  { s with crc := c, result := c.setWidth 32 }

/-- EKOFF, EKLEN and STATUS.TAG <- the effective key found (42_hashtag.md R131, 43_slot.md R142). -/
def State.writeSpan (s : State) (off elen : Nat) (tag : Bool) : State :=
  { s with
    ekoff := BitVec.ofNat 32 off
    eklen := BitVec.ofNat 32 elen
    status := statusWithTag s.status tag }

/-- An RD gives the host `v` (10_state.md R23). -/
def State.returnData (s : State) (v : Word) : State := { s with reads := s.reads ++ [v] }

/-- The platform's key memory becomes `m`. -/
def State.setMem (s : State) (m : Memory) : State := { s with mem := m }

/-- The moves still to come become `es`. -/
def State.setPending (s : State) (es : List Event) : State := { s with pending := es }

/-! ## Taking a fault, and the only way back -/

/-- `raise Fault(cause, info)` (60_exceptions.md R151, R152): the first fault since reset is recorded, a later one records
nothing, and no other state changes. -/
def State.raise (s : State) (c : FaultCause) (info : Word) : State :=
  if s.halted then s
  else { s with status := statusWithFault s.status (causeCode c), finfo := info }

/-- RESET (70_reset_and_hazards.md R180): every register takes its reset value, which clears FAULT. The key memory is the
platform's, and the moves and values read are the host's: RESET leaves them. -/
def State.resetCore (s : State) : State :=
  { State.reset with mem := s.mem, pending := s.pending, reads := s.reads }

end Sys2Proof.Machine
end

