-- ==== Sys2Proof/Machine/Operands.lean ====
section
/-! DEFINITION. The operands of the commands (30_encoding.md R74, R82): the length and the region of a memory command, the
region check of 20_memory.md R54 and the snapshot of the key (R55, R56); what is common to every command. -/

namespace Sys2Proof.Machine

/-- LEN[31] = 1: the length is negative (10_state.md R26). -/
def State.lenNegative (s : State) : Bool := s.len.getLsbD 31

/-- n = nat(LEN[30:0]) (10_state.md R26). -/
def State.keyLen (s : State) : Nat := (s.len.extractLsb' 0 31).toNat

/-- The `n` bytes from offset `k` above `base`, in ascending order, or the least offset at which no byte can be read
(20_memory.md R54 to R56). The address sum is unbounded and never wraps. -/
def readBytes (m : Memory) (base : Nat) : Nat → Nat → Except Nat (List Byte)
  | _, 0 => .ok []
  | k, n + 1 =>
    match m.byte? (base + k) with
    | none => .error k
    | some b =>
      match readBytes m base (k + 1) n with
      | .error j => .error j
      | .ok bs => .ok (b :: bs)

/-- The region check and the key (20_memory.md R54, R55): the key's bytes, or the fault and its FINFO. -/
def State.readKey (s : State) : Except (FaultCause × Word) (List Byte) :=
  if s.lenNegative then .error (.lenNegative, s.len)
  else match readBytes s.mem s.addr.toNat 0 s.keyLen with
    | .error k => .error (.region, BitVec.ofNat 32 k)
    | .ok xs => .ok xs

/-- A memory command: the region check before any other effect, then what the command does with the key
(20_memory.md R54; 60_exceptions.md R151: a faulting command changes no other register). -/
def State.withKey (s : State) (f : List Byte → State) : State :=
  match s.readKey with
  | .error (c, info) => s.raise c info
  | .ok xs => f xs

/-- Common to every command: no command takes effect while FAULT = 1 (10_state.md R30, 60_exceptions.md R153). Every command
otherwise completes with a next state (20_memory.md R61). -/
def State.perform (s t : State) : Host.Outcome State Fault Refusal :=
  .next (if s.halted then s else t)

end Sys2Proof.Machine
end

