-- ==== Sys2Proof/Machine/Table.lean ====
section
/-! DEFINITION. The checksum table (40_table.md R100, R101) and TBLRD (R102). -/

namespace Sys2Proof.Machine

/-- One round (40_table.md R100): test bit 15, shift left, drop the bit shifted out, XOR the polynomial in if it was 1. -/
def crcRound (v : Half) : Half :=
  if v.getLsbD 15 then (v <<< 1) ^^^ Config.poly else v <<< 1

/-- `n` rounds. -/
def crcRounds : Nat → Half → Half
  | 0, v => v
  | n + 1, v => crcRounds n (crcRound v)

/-- `tableEntry(i)` (40_table.md R100): the byte goes into bits 15..8, then eight rounds. TABLE is a ROM, so TABLE[i] is this
value in every state (R101; log 1). -/
def tableEntry (i : Byte) : Half := crcRounds 8 (i.setWidth 16 <<< 8)

/-- TABLE as its 256 entries in order (10_state.md R35). -/
def tableRom : List Half := (List.range 256).map fun i => tableEntry (BitVec.ofNat 8 i)

/-- TBLRD i (40_table.md R102). -/
def execTblrd (i : Byte) (s : State) : Host.Outcome State Fault Refusal :=
  s.perform (s.writeResult ((tableEntry i).setWidth 32))

end Sys2Proof.Machine
end

