-- ==== Sys2Proof/Machine/Crc.lean ====
section
/-! DEFINITION. The CRC-16 generator (41_crc.md R110, R111): CRCCLR, CRCUPD, CHKSUM. -/

namespace Sys2Proof.Machine

/-- The update step (41_crc.md R110): the index is the high byte of the register XOR the data byte. -/
def crcStep (r : Half) (b : Byte) : Half :=
  tableEntry (r.extractLsb' 8 8 ^^^ b) ^^^ (r <<< 8)

/-- The checksum of a byte sequence (41_crc.md R111): the fold of the step from the initial value, nothing done to the result. -/
def crc16 (xs : List Byte) : Half := xs.foldl crcStep Config.crcInit

/-- CRCCLR (41_crc.md R112). -/
def execCrcclr (s : State) : Host.Outcome State Fault Refusal :=
  s.perform (s.writeChecksum Config.crcInit)

/-- CRCUPD b (41_crc.md R113): the step reads the old CRC. -/
def execCrcupd (b : Byte) (s : State) : Host.Outcome State Fault Refusal :=
  s.perform (s.writeChecksum (crcStep s.crc b))

/-- CHKSUM (41_crc.md R114): the whole key, no hash-tag rule, the old CRC ignored. -/
def execChksum (s : State) : Host.Outcome State Fault Refusal :=
  s.perform (s.withKey fun xs => s.writeChecksum (crc16 xs))

end Sys2Proof.Machine
end

