-- ==== Sys2Proof/Machine/HashTag.lean ====
section
/-! DEFINITION. The hash-tag extractor (42_hashtag.md R130) and TAGEXT (R131). -/

namespace Sys2Proof.Machine

/-- What `tagExtract` returns (42_hashtag.md R130): where the effective key lies, and whether a hash tag gave it. -/
structure Span where
  off : Nat
  elen : Nat
  tag : Bool
deriving DecidableEq, Repr

/-- The whole key: what applies when no hash tag does (42_hashtag.md R130). -/
def wholeKey (xs : List Byte) : Span := ⟨0, xs.length, false⟩

/-- `tagExtract(xs)` (42_hashtag.md R130): the first opening brace, then the first closing brace after it, with at least one
byte between them; otherwise the whole key. -/
def tagExtract (xs : List Byte) : Span :=
  match xs.findIdx? (· == Config.tagOpen) with
  | none => wholeKey xs
  | some s =>
    match (xs.drop (s + 1)).findIdx? (· == Config.tagClose) with
    | none => wholeKey xs
    | some 0 => wholeKey xs
    | some (d + 1) => ⟨s + 1, d + 1, true⟩

/-- `effectiveKey(xs)` (42_hashtag.md R130). -/
def effectiveKey (xs : List Byte) : List Byte :=
  (xs.drop (tagExtract xs).off).take (tagExtract xs).elen

/-- EKOFF, EKLEN and TAG as `tagExtract` gives them (42_hashtag.md R131, 43_slot.md R142). -/
def State.writeTagOf (s : State) (xs : List Byte) : State :=
  s.writeSpan (tagExtract xs).off (tagExtract xs).elen (tagExtract xs).tag

/-- TAGEXT (42_hashtag.md R131): RESULT is the TAG flag, zero-extended. -/
def execTagext (s : State) : Host.Outcome State Fault Refusal :=
  s.perform (s.withKey fun xs =>
    (s.writeTagOf xs).writeResult ((BitVec.ofBool (tagExtract xs).tag).setWidth 32))

end Sys2Proof.Machine
end

