-- ==== Sys2Proof/Machine/Slot.lean ====
section
/-! DEFINITION. The modulo slot reducer (43_slot.md R140): SLOTRED (R141), KEYSLOT (R142). -/

namespace Sys2Proof.Machine

/-- `slotReduce(c)` for a slot count `n` (43_slot.md R140). -/
def slotReduce (n : Nat) (c : Half) : Nat := c.toNat % n

/-- The slot of a checksum as RESULT holds it, with this hardware's NSLOTS (43_slot.md R141). -/
def slotWord (c : Half) : Word := BitVec.ofNat 32 (slotReduce Config.nslots c)

/-- SLOTRED (43_slot.md R141): CRC is unchanged. -/
def execSlotred (s : State) : Host.Outcome State Fault Refusal :=
  s.perform (s.writeResult (slotWord s.crc))

/-- KEYSLOT (43_slot.md R142): the checksum of the effective key goes to CRC, its slot to RESULT. -/
def execKeyslot (s : State) : Host.Outcome State Fault Refusal :=
  s.perform (s.withKey fun xs =>
    ((s.writeTagOf xs).writeChecksum (crc16 (effectiveKey xs))).writeResult
      (slotWord (crc16 (effectiveKey xs))))

end Sys2Proof.Machine
end

