-- ==== Sys2Proof/Machine/Dispatch.lean ====
section
/-! DEFINITION. The dispatch: one arm per command, each one call of its meaning. -/

namespace Sys2Proof.Machine

def exec (i : Instr) (s : State) : Host.Outcome State Fault Refusal :=
  match i with
  | .tblrd k => Sys2Proof.Machine.execTblrd k s
  | .crcclr => Sys2Proof.Machine.execCrcclr s
  | .crcupd b => Sys2Proof.Machine.execCrcupd b s
  | .chksum => Sys2Proof.Machine.execChksum s
  | .tagext => Sys2Proof.Machine.execTagext s
  | .slotred => Sys2Proof.Machine.execSlotred s
  | .keyslot => Sys2Proof.Machine.execKeyslot s

end Sys2Proof.Machine
end

