-- ==== Sys2Proof/Machine/Bus.lean ====
section
/-! DEFINITION. The register window and the host's moves: which accesses are legal (10_state.md R23, R34), what each does
(R24 to R33), a CMD write (60_exceptions.md R153, R154), RESET, and key memory changing beside the core
(20_memory.md R55, R62, R67). -/

namespace Sys2Proof.Machine

/-- The register at an offset (the map of 10_state.md R23); none where the window is unmapped or between registers. -/
def regAt (o : BitVec 6) : Option Reg :=
  match o.toNat with
  | 0x00 => some .cmd
  | 0x04 => some .addr
  | 0x08 => some .len
  | 0x0C => some .crc
  | 0x10 => some .result
  | 0x14 => some .ekoff
  | 0x18 => some .eklen
  | 0x1C => some .status
  | 0x20 => some .finfo
  | 0x24 => some .nslots
  | _ => none

/-- The offset of a register (the map of 10_state.md R23). -/
def offsetOf : Reg → BitVec 6
  | .cmd => 0x00#6
  | .addr => 0x04#6
  | .len => 0x08#6
  | .crc => 0x0C#6
  | .result => 0x10#6
  | .ekoff => 0x14#6
  | .eklen => 0x18#6
  | .status => 0x1C#6
  | .finfo => 0x20#6
  | .nslots => 0x24#6

/-- The access column of 10_state.md R23 allows RD. -/
def Reg.readable : Reg → Bool
  | .cmd => false
  | .addr | .len | .crc | .result | .ekoff | .eklen | .status | .finfo | .nslots => true

/-- The access column of 10_state.md R23 allows WR. -/
def Reg.writable : Reg → Bool
  | .cmd | .addr | .len => true
  | .crc | .result | .ekoff | .eklen | .status | .finfo | .nslots => false

/-- The offset of an access. -/
def Access.offset : Access → BitVec 6
  | .rd o _ => o
  | .wr o _ _ => o

/-- The size of an access in bytes. -/
def Access.size : Access → Nat
  | .rd _ n => n
  | .wr _ n _ => n

/-- The register's access column allows the kind of this access. -/
def Access.allowedAt : Access → Reg → Bool
  | .rd _ _, r => r.readable
  | .wr _ _ _, r => r.writable

/-- The register a legal access reaches, none when the access is illegal (10_state.md R23): four bytes, aligned to four,
a register of the map, and a kind that register allows. -/
def Access.target (a : Access) : Option Reg :=
  if a.size = 4 ∧ a.offset.extractLsb' 0 2 = 0#2 then
    (regAt a.offset).filter (a.allowedAt ·)
  else none

/-- What a legal RD returns (10_state.md R24 to R32). CMD has no storage, and no legal RD names it (R33). -/
def State.readReg (s : State) : Reg → Word
  | .cmd => 0x00000000#32
  | .addr => s.addr
  | .len => s.len
  | .crc => s.crc.setWidth 32
  | .result => s.result
  | .ekoff => s.ekoff
  | .eklen => s.eklen
  | .status => statusRead s.status
  | .finfo => s.finfo
  | .nslots => BitVec.ofNat 32 Config.nslots

/-- An illegal access (10_state.md R23; 60_exceptions.md R150, R152): BUS with the offset, no other effect on a register, and
an RD returns 0. -/
def State.illegalAccess (s : State) : Access → State
  | .rd o _ => (s.raise .bus (o.setWidth 32)).returnData 0x00000000#32
  | .wr o _ _ => s.raise .bus (o.setWidth 32)

/-- A legal WR of CMD (10_state.md R33; 60_exceptions.md R153, R154): ignored and not decoded while FAULT = 1; otherwise the word
is decoded and performed, or raises ILLEGAL_CMD. -/
def issue (s : State) (w : Word) : Host.Outcome State Fault Refusal :=
  if s.halted then .next s
  else match decode w with
    | .error _ => .next (s.raise .illegalCmd w)
    | .ok i => exec i s

/-- A legal WR (10_state.md R25, R26, R33). No legal WR names any other register. -/
def writeReg (s : State) (data : Word) : Reg → Host.Outcome State Fault Refusal
  | .cmd => issue s data
  | .addr => .next { s with addr := data }
  | .len => .next { s with len := data }
  | .crc | .result | .ekoff | .eklen | .status | .finfo | .nslots => .next s

/-- A host access (10_state.md R23). -/
def performAccess (s : State) (a : Access) : Host.Outcome State Fault Refusal :=
  match a.target with
  | none => .next (s.illegalAccess a)
  | some r =>
    match a with
    | .rd _ _ => .next (s.returnData (s.readReg r))
    | .wr _ _ data => writeReg s data r

/-- The memory commands (20_memory.md R54): those that read key memory. -/
def readsKey : Instr → Bool
  | .chksum | .tagext | .keyslot => true
  | .tblrd _ | .crcclr | .crcupd _ | .slotred => false

/-- The access issues a memory command: a legal WR of CMD, while FAULT = 0, of a word that decodes to one. -/
def State.issuesMemoryCommand (s : State) (a : Access) : Bool :=
  match a with
  | .rd _ _ => false
  | .wr _ _ w =>
    a.target == some .cmd && !s.halted &&
      (match decode w with
      | .error _ => false
      | .ok i => readsKey i)

/-- Address `x` lies in the region of the memory command that access `a` issues: ADDR up to ADDR + n - 1
(00_scope.md, glossary "Region"; 20_memory.md R54, R67). A negative LEN gives no region. -/
def State.inRegion (s : State) (a : Access) (x : Word) : Bool :=
  s.issuesMemoryCommand a && !s.lenNegative &&
    decide (s.addr.toNat ≤ x.toNat ∧ x.toNat < s.addr.toNat + s.keyLen)

/-- One move. An access reads the key memory as it stands when the access begins (20_memory.md R55); what other agents write
meanwhile lies outside the region of its command, or the model gives the run no meaning (R67). -/
def performEvent (s : State) : Event → Host.Outcome State Fault Refusal
  | .access a during =>
    match during.find? (fun c => s.inRegion a c.1) with
    | some c => .refused (.regionWritten c.1)
    | none =>
      match performAccess s a with
      | .next t => .next (t.setMem (t.mem.storeAll during))
      | .fault f => .fault f
      | .refused r => .refused r
  | .reset => .next s.resetCore
  | .platform cells => .next (s.setMem (Memory.ofCells cells))

/-- The next move to come is taken off and performed; with no move to come the core does nothing
(20_memory.md R61; 60_exceptions.md R163, R164). -/
def stepPending (s : State) : Host.Outcome State Fault Refusal :=
  match s.pending with
  | [] => .next s
  | e :: es => performEvent (s.setPending es) e

/-- The host access that writes a word to CMD (30_encoding.md R71). -/
def cmdWrite (w : Word) : Event := .access (.wr 0x00#6 4 w) []

/-- The state with a CMD write of the word placed as the very next move (log 10). -/
def State.placeWord (s : State) (w : Word) : State := s.setPending (cmdWrite w :: s.pending)

end Sys2Proof.Machine
end

