-- ==== Sys2Proof/Machine/Step.lean ====
section
/-! DEFINITION. The step: the machine's next move (20_memory.md R61; 60_exceptions.md R164). -/

namespace Sys2Proof.Machine

/-- One step: the next move still to come. -/
def step (s : State) : Host.Outcome State Fault Refusal := stepPending s

/-- The state whose very next step performs the command word of bits `w`: a legal CMD write of it stands first among the
moves to come. The core fetches nothing (10_state.md R22), so this stands for the host's write (log 10). -/
def State.withFetchWord (s : State) (nbits w : Nat) : State :=
  s.placeWord (BitVec.ofNat 32 (w % 2 ^ nbits))

end Sys2Proof.Machine
end

