-- ==== Sys2Proof/Machine/Asm.lean ====
section
/-! DEFINITION. The assembler notation of 30_encoding.md R79 to R81: command lines, host lines and pseudo-instructions, from
text to the host's moves. It is notation only (D25) and nothing in the step reads it. What the spec leaves open about the
text is in log 11. -/

namespace Sys2Proof.Machine

/-- A line of a host program: the commands (R79), the host lines (R80) and the pseudo-instructions (R81). Operands are the
numbers written; whether they are in range is checked when the line is expanded. -/
inductive Line where
  | tblrd (imm : Nat)
  | crcclr
  | crcupd (imm : Nat)
  | chksum
  | tagext
  | slotred
  | keyslot
  | wr (offset imm : Nat)
  | rd (offset : Nat)
  | reset
  | setkey (a n : Nat)
  | checksum (a n : Nat)
  | slot (a n : Nat)
  | crcbytes (bs : List Nat)
  | crcstr (cs : List Char)
deriving DecidableEq, Repr

/-! ## Expansion -/

/-- A command line is shorthand for the CMD write of its word (R80). -/
def commandLine (i : Instr) : List Event := [cmdWrite (encode i)]

/-- A host write of a register, a 32-bit access (R80). -/
def writeLine (offset imm : Nat) : Option (List Event) :=
  if offsetLegal offset ∧ imm32Legal imm then
    some [.access (.wr (BitVec.ofNat 6 offset) 4 (BitVec.ofNat 32 imm)) []]
  else none

/-- A host read of a register, a 32-bit access (R80). -/
def readLine (offset : Nat) : Option (List Event) :=
  if offsetLegal offset then some [.access (.rd (BitVec.ofNat 6 offset) 4) []] else none

/-- A command with an `<imm8>`: out of range is an assembly error (R79). -/
def immLine (f : Byte → Instr) (imm : Nat) : Option (List Event) :=
  if imm8Legal imm then some (commandLine (f (BitVec.ofNat 8 imm))) else none

/-- `SETKEY a, n` is `WR ADDR, a ; WR LEN, n` (R81). -/
def setKeyLines (a n : Nat) : Option (List Event) :=
  match writeLine (offsetOf .addr).toNat a, writeLine (offsetOf .len).toNat n with
  | some x, some y => some (x ++ y)
  | _, _ => none

/-- `SETKEY a, n` and then one command (R81). -/
def keyLines (a n : Nat) (i : Instr) : Option (List Event) :=
  (setKeyLines a n).map (· ++ commandLine i)

/-- One CRCUPD per byte, in order (R81). -/
def bytesLines : List Nat → Option (List Event)
  | [] => some []
  | b :: bs =>
    match immLine .crcupd b, bytesLines bs with
    | some x, some y => some (x ++ y)
    | _, _ => none

/-- The byte of a character: its ASCII code, for which there is none from 128 on (00_scope.md R7, D27). -/
def asciiOf (c : Char) : Option Nat := if c.toNat < 128 then some c.toNat else none

/-- The moves a line stands for (R79 to R81), or none: an assembly error. -/
def Line.expand : Line → Option (List Event)
  | .tblrd imm => immLine .tblrd imm
  | .crcclr => some (commandLine .crcclr)
  | .crcupd imm => immLine .crcupd imm
  | .chksum => some (commandLine .chksum)
  | .tagext => some (commandLine .tagext)
  | .slotred => some (commandLine .slotred)
  | .keyslot => some (commandLine .keyslot)
  | .wr offset imm => writeLine offset imm
  | .rd offset => readLine offset
  | .reset => some [.reset]
  | .setkey a n => setKeyLines a n
  | .checksum a n => keyLines a n .chksum
  | .slot a n => keyLines a n .keyslot
  | .crcbytes bs => if bs = [] then none else bytesLines bs
  | .crcstr cs => (cs.mapM asciiOf).bind bytesLines

/-- The moves of a list of lines, in order. -/
def expandAll : List Line → Option (List Event)
  | [] => some []
  | l :: ls =>
    match l.expand, expandAll ls with
    | some x, some y => some (x ++ y)
    | _, _ => none

/-! ## Text -/

/-- The tokens of a line. -/
inductive Tok where
  | word (cs : List Char)
  | comma
  | chr (c : Char)
  | str (cs : List Char)
deriving DecidableEq, Repr

/-- Where the scan stands: in a word, just after an opening single quote, just after its character, or in a string. -/
inductive Scan where
  | plain (acc : List Char)
  | quote
  | quoted (c : Char)
  | inString (acc : List Char)
deriving DecidableEq, Repr

/-- The word gathered so far, if there is one, before the tokens that follow. -/
def endWord (acc : List Char) (ts : List Tok) : List Tok :=
  if acc = [] then ts else .word acc.reverse :: ts

/-- The tokens of a line: words end at a space, a tab, a comma or a quote; none if a quote is left open. -/
def scan : Scan → List Char → Option (List Tok)
  | .plain acc, [] => some (endWord acc [])
  | .plain acc, c :: cs =>
    if c.toNat = 0x20 ∨ c.toNat = 0x09 then (scan (.plain []) cs).map (endWord acc)
    else if c.toNat = 0x2C then (scan (.plain []) cs).map fun ts => endWord acc (.comma :: ts)
    else if c.toNat = 0x27 then (scan .quote cs).map (endWord acc)
    else if c.toNat = 0x22 then (scan (.inString []) cs).map (endWord acc)
    else scan (.plain (c :: acc)) cs
  | .quote, [] => none
  | .quote, c :: cs => scan (.quoted c) cs
  | .quoted _, [] => none
  | .quoted c, d :: cs =>
    if d.toNat = 0x27 then (scan (.plain []) cs).map (.chr c :: ·) else none
  | .inString _, [] => none
  | .inString acc, c :: cs =>
    if c.toNat = 0x22 then (scan (.plain []) cs).map (.str acc.reverse :: ·)
    else scan (.inString (c :: acc)) cs

/-- A digit, decimal or hexadecimal, of either case. -/
def digitOf (c : Char) : Option Nat :=
  if 0x30 ≤ c.toNat ∧ c.toNat ≤ 0x39 then some (c.toNat - 0x30)
  else if 0x41 ≤ c.toNat ∧ c.toNat ≤ 0x46 then some (c.toNat - 0x41 + 10)
  else if 0x61 ≤ c.toNat ∧ c.toNat ≤ 0x66 then some (c.toNat - 0x61 + 10)
  else none

/-- The number that digits of a base write, from the value so far. -/
def digitsIn (base : Nat) : Nat → List Char → Option Nat
  | v, [] => some v
  | v, c :: cs =>
    match digitOf c with
    | none => none
    | some d => if d < base then digitsIn base (v * base + d) cs else none

/-- A number: decimal, or hexadecimal after 0x. R79 gives these forms for an `<imm8>`; the details of the digits are a DESIGN
CHOICE (log 11). -/
def numberOf : List Char → Option Nat
  | [] => none
  | ['0', 'x'] => none
  | '0' :: 'x' :: cs => digitsIn 16 0 cs
  | cs => digitsIn 10 0 cs

/-- An `<imm8>`: a number, or the ASCII code of a quoted character (R79). -/
def immOf : Tok → Option Nat
  | .word cs => numberOf cs
  | .chr c => asciiOf c
  | .comma => none
  | .str _ => none

/-- An `<imm32>`, and the a and n of SETKEY, CHECKSUM and SLOT, which expand to one (R80, R81). The spec gives no text forms
for them: DESIGN CHOICE, a decimal or 0x number without a sign, and no quoted character (log 11). -/
def numberTok : Tok → Option Nat
  | .word cs => numberOf cs
  | .chr _ => none
  | .comma => none
  | .str _ => none

/-- A `<reg>`: a register's name, or a raw offset written @0xNN (R80). -/
def regOf : Tok → Option Nat
  | .word ['C', 'M', 'D'] => some (offsetOf .cmd).toNat
  | .word ['A', 'D', 'D', 'R'] => some (offsetOf .addr).toNat
  | .word ['L', 'E', 'N'] => some (offsetOf .len).toNat
  | .word ['C', 'R', 'C'] => some (offsetOf .crc).toNat
  | .word ['R', 'E', 'S', 'U', 'L', 'T'] => some (offsetOf .result).toNat
  | .word ['E', 'K', 'O', 'F', 'F'] => some (offsetOf .ekoff).toNat
  | .word ['E', 'K', 'L', 'E', 'N'] => some (offsetOf .eklen).toNat
  | .word ['S', 'T', 'A', 'T', 'U', 'S'] => some (offsetOf .status).toNat
  | .word ['F', 'I', 'N', 'F', 'O'] => some (offsetOf .finfo).toNat
  | .word ['N', 'S', 'L', 'O', 'T', 'S'] => some (offsetOf .nslots).toNat
  | .word ['@', '0', 'x', h, l] => digitsIn 16 0 [h, l]
  | _ => none

/-- A list of `<imm8>` parted by commas. -/
def immList : List Tok → Option (List Nat)
  | [] => none
  | [t] => (immOf t).map ([·])
  | t :: .comma :: ts =>
    match immOf t, immList ts with
    | some n, some ns => some (n :: ns)
    | _, _ => none
  | _ :: _ => none

/-- Two operands parted by a comma. -/
def pairOf (f g : Tok → Option Nat) (mk : Nat → Nat → Line) : List Tok → Option Line
  | [t, .comma, u] =>
    match f t, g u with
    | some x, some y => some (mk x y)
    | _, _ => none
  | _ => none

/-- One operand. -/
def oneOf (f : Tok → Option Nat) (mk : Nat → Line) : List Tok → Option Line
  | [t] => (f t).map mk
  | _ => none

/-- No operand. -/
def noneOf (l : Line) : List Tok → Option Line
  | [] => some l
  | _ :: _ => none

/-- A line of text (R79 to R81); mnemonics are matched in lower case, so either case will do (R79). -/
def parseToks : List Tok → Option Line
  | .word m :: ts =>
    match m.map Char.toLower with
    | ['t', 'b', 'l', 'r', 'd'] => oneOf immOf .tblrd ts
    | ['c', 'r', 'c', 'c', 'l', 'r'] => noneOf .crcclr ts
    | ['c', 'r', 'c', 'u', 'p', 'd'] => oneOf immOf .crcupd ts
    | ['c', 'h', 'k', 's', 'u', 'm'] => noneOf .chksum ts
    | ['t', 'a', 'g', 'e', 'x', 't'] => noneOf .tagext ts
    | ['s', 'l', 'o', 't', 'r', 'e', 'd'] => noneOf .slotred ts
    | ['k', 'e', 'y', 's', 'l', 'o', 't'] => noneOf .keyslot ts
    | ['w', 'r'] => pairOf regOf numberTok .wr ts
    | ['r', 'd'] => oneOf regOf .rd ts
    | ['r', 'e', 's', 'e', 't'] => noneOf .reset ts
    | ['s', 'e', 't', 'k', 'e', 'y'] => pairOf numberTok numberTok .setkey ts
    | ['c', 'h', 'e', 'c', 'k', 's', 'u', 'm'] => pairOf numberTok numberTok .checksum ts
    | ['s', 'l', 'o', 't'] => pairOf numberTok numberTok .slot ts
    | ['c', 'r', 'c', 'b', 'y', 't', 'e', 's'] => (immList ts).map .crcbytes
    | ['c', 'r', 'c', 's', 't', 'r'] =>
      match ts with
      | [.str cs] => some (.crcstr cs)
      | _ => none
    | _ => none
  | _ => none

/-- A line of text as its characters. -/
def parseLine (cs : List Char) : Option Line := (scan (.plain []) cs).bind parseToks

/-- The moves a line of text stands for, or none: an assembly error. -/
def assembleLine (cs : List Char) : Option (List Event) := (parseLine cs).bind Line.expand

end Sys2Proof.Machine
end

