-- ==== Sys2Proof/Safety.lean ====
section
/-! DEFINITION. The terms that claims are made in: what key stands in memory (20_memory.md R54 to R56), which offset of a
region fails first, the invariant of the machine, the state a claim observes, the bit-by-bit checksum of 41_crc.md R115 and a
good run (70_reset_and_hazards.md R190). -/

namespace Sys2Proof.Machine

/-- The key that ADDR and LEN name is `xs`: LEN is not negative, `xs` has its length, and every byte of the region is
admitted and is the byte of `xs` at its offset (20_memory.md R54 to R56). -/
def State.HoldsKey (s : State) (xs : List Byte) : Prop :=
  s.lenNegative = false ∧ xs.length = s.keyLen ∧
    ∀ k (h : k < xs.length), s.mem.byte? (s.addr.toNat + k) = some xs[k]

/-- `k` is the least offset of the region whose byte does not exist or may not be read (20_memory.md R54). -/
def State.FirstGap (s : State) (k : Nat) : Prop :=
  s.lenNegative = false ∧ k < s.keyLen ∧
    s.mem.byte? (s.addr.toNat + k) = none ∧
    ∀ j < k, (s.mem.byte? (s.addr.toNat + j)).isSome = true

/-- The two memories agree on the region of `s` (70_reset_and_hazards.md R190: nothing else of key memory is observable). -/
def State.SameRegion (s : State) (m : Memory) : Prop :=
  ∀ k < s.keyLen,
    m.byte? (s.addr.toNat + k) = s.mem.byte? (s.addr.toNat + k)

/-- The state after `raise Fault(cause, info)` in a state with FAULT = 0 (60_exceptions.md R151). -/
def State.faulted (s : State) (c : FaultCause) (info : Word) : State :=
  { s with status := statusWithFault s.status (causeCode c), finfo := info }

/-- FINFO is one that the recorded cause can leave (60_exceptions.md R150). -/
def infoLegal (cause : BitVec 4) (info : Word) : Bool :=
  match cause.toNat with
  | 0 => info == 0x00000000#32
  | 1 => !wordLegal info
  | 2 => info.getLsbD 31
  | 3 => info.toNat < 2 ^ 31 - 1
  | 4 => info.toNat < 2 ^ 6
  | _ => false

/-- The invariant of the machine: key memory is in canonical form; the reserved bits of STATUS are 0 (10_state.md R30); FAULT
is 1 exactly when a cause is recorded, the cause is one of R150 and FINFO is one it can leave; RESULT is in [0, 65535]
(R27); the effective key lies in a key of legal length (R28, R29), and TAG says whether it lies between braces
(42_hashtag.md R132). -/
def State.Inv (s : State) : Prop :=
  s.mem.wf ∧
  s.status &&& ~~~statusFields = 0#32 ∧
  (statusFault s.status = false ↔ statusCause s.status = 0#4) ∧
  infoLegal (statusCause s.status) s.finfo = true ∧
  s.result.toNat < 2 ^ 16 ∧
  s.ekoff.toNat + s.eklen.toNat < 2 ^ 31 ∧
  (statusTag s.status = false → s.ekoff = 0#32) ∧
  (statusTag s.status = true → 1 ≤ s.ekoff.toNat ∧ 1 ≤ s.eklen.toNat)

/-- Direct bit-by-bit polynomial division (41_crc.md R115): each byte is XORed into bits 15..8, then eight rounds, with no
table. -/
def crcBitwise (xs : List Byte) : Half :=
  xs.foldl (fun r b => crcRounds 8 (r ^^^ ((b.setWidth 16 : Half) <<< 8))) 0x0000#16

/-- `slot(xs)`: the slot of a key (43_slot.md R144). -/
def slotOf (xs : List Byte) : Nat := slotReduce Config.nslots (crc16 (effectiveKey xs))

/-- Writing the word to CMD while FAULT = 0 raises Fault(ILLEGAL_CMD, w) and does nothing else (30_encoding.md R75, R76). -/
def RaisesIllegal (w : Word) : Prop :=
  ∀ s : State, s.halted = false → performAccess s (.wr 0x00#6 4 w) = .next (s.faulted .illegalCmd w)

/-- The rows of the opcode map, match and mask (30_encoding.md R75). -/
def opcodeRows : List (Word × Word) :=
  [(0x01000000#32, 0xFFFFFF00#32), (0x02000000#32, 0xFFFFFFFF#32), (0x03000000#32, 0xFFFFFF00#32),
   (0x04000000#32, 0xFFFFFFFF#32), (0x05000000#32, 0xFFFFFFFF#32), (0x06000000#32, 0xFFFFFFFF#32),
   (0x07000000#32, 0xFFFFFFFF#32)]

/-- A word selects a row when `(w & mask) == match` (30_encoding.md R75). -/
def selectsRow (w : Word) (row : Word × Word) : Prop := w &&& row.2 = row.1

/-- `s` is the offset of the first opening brace of the key (42_hashtag.md R130). -/
def FirstOpen (xs : List Byte) (s : Nat) : Prop :=
  xs[s]? = some 0x7B#8 ∧ ∀ j < s, xs[j]? ≠ some 0x7B#8

/-- `e` is the offset of the first closing brace after offset `s` (42_hashtag.md R130). -/
def FirstCloseAfter (xs : List Byte) (s e : Nat) : Prop :=
  s < e ∧ xs[e]? = some 0x7D#8 ∧ ∀ j, s < j → j < e → xs[j]? ≠ some 0x7D#8

/-- Performs commands one after another, as their CMD writes would in order (20_memory.md R61). -/
def execAll : List Instr → State → Host.Outcome State Fault Refusal
  | [], s => .next s
  | i :: is, s =>
    match exec i s with
    | .next t => execAll is t
    | .fault f => .fault f
    | .refused r => .refused r

/-- A good run of the moves `es` after power-on RESET, ending in `t` (70_reset_and_hazards.md R190): every move is performed,
none is refused (R67), and FAULT = 0 at the end. -/
def GoodRun (es : List Event) (t : State) : Prop :=
  core.run es.length (State.reset.setPending es) = .next t ∧ t.halted = false

end Sys2Proof.Machine
end

