-- ==== Sys2Proof/Certificates/Slice0/Obligations.lean ====
section
/-! DEFINITION. The statements about the model, each formalising rules of spec/ (its `cites` in OBLIGATIONS.json). A stated one
formalises the rules it cites whole; a derived one rests on the sections it cites. -/

open Sys2Proof Sys2Proof.Machine

/-- For every command i, decode (encode i) is i, with its operand at every value; and for every word w that decodes to a
command i, encode i is w. So no bit of a command word is dropped and no two words are one command. (derived:
30_encoding.md section 1, 30_encoding.md section 3, 30_encoding.md section 6) -/
def Obligations.DecodeAndEncodeAgree : Prop :=
  (∀ i : Instr, decode (encode i) = .ok i) ∧
    ∀ (w : Word) (i : Instr), decode w = .ok i → encode i = w

/-- For every word w: if it selects a row of the opcode map it decodes to that row's command with IMM8 as its operand
where the row has one; if it selects no row it decodes to ILLEGAL, and its CMD write (FAULT = 0) raises
Fault(ILLEGAL_CMD, w). No word selects two rows. (stated: R75) -/
def Obligations.DecodeFollowsTheOpcodeMap : Prop :=
  (∀ w : Word,
    (selectsRow w (0x01000000#32, 0xFFFFFF00#32) → decode w = .ok (.tblrd (w.extractLsb' 0 8))) ∧
    (selectsRow w (0x02000000#32, 0xFFFFFFFF#32) → decode w = .ok .crcclr) ∧
    (selectsRow w (0x03000000#32, 0xFFFFFF00#32) → decode w = .ok (.crcupd (w.extractLsb' 0 8))) ∧
    (selectsRow w (0x04000000#32, 0xFFFFFFFF#32) → decode w = .ok .chksum) ∧
    (selectsRow w (0x05000000#32, 0xFFFFFFFF#32) → decode w = .ok .tagext) ∧
    (selectsRow w (0x06000000#32, 0xFFFFFFFF#32) → decode w = .ok .slotred) ∧
    (selectsRow w (0x07000000#32, 0xFFFFFFFF#32) → decode w = .ok .keyslot) ∧
    ((∀ row ∈ opcodeRows, ¬ selectsRow w row) → (∃ e, decode w = .error e) ∧ RaisesIllegal w)) ∧
    opcodeRows.Pairwise (fun r q => ∀ w : Word, ¬ (selectsRow w r ∧ selectsRow w q))

/-- A word decodes to ILLEGAL exactly when its OPC is 0x00, or its OPC is 0x08 to 0xFF, or RSV != 0, or its OPC is 0x02,
0x04, 0x05, 0x06 or 0x07 with IMM8 != 0. Each of them raises ILLEGAL_CMD when written to CMD with FAULT = 0; the all-
zero word is one. (stated: R76) -/
def Obligations.IllegalWordsAreThoseListed : Prop :=
  (∀ w : Word,
    ((∃ e, decode w = .error e) ↔
      (w.extractLsb' 24 8 = 0x00#8 ∨ 0x08#8 ≤ w.extractLsb' 24 8 ∨ w.extractLsb' 8 16 ≠ 0#16 ∨
        ((w.extractLsb' 24 8 = 0x02#8 ∨ w.extractLsb' 24 8 = 0x04#8 ∨ w.extractLsb' 24 8 = 0x05#8 ∨
          w.extractLsb' 24 8 = 0x06#8 ∨ w.extractLsb' 24 8 = 0x07#8) ∧ w.extractLsb' 0 8 ≠ 0#8))) ∧
    ((∃ e, decode w = .error e) ↔ ∀ row ∈ opcodeRows, ¬ selectsRow w row) ∧
    ((∃ e, decode w = .error e) → RaisesIllegal w)) ∧
    ∃ e, decode 0x00000000#32 = .error e

/-- The words E1 to E15 of the test vectors decode to the commands, or to ILLEGAL, as the vectors list. (derived:
95_test_vectors.md section 2.6) -/
def Obligations.WordsOfTheSpecDecode : Prop :=
  (decode 0x00000000#32).toOption = none ∧ decode 0x01000000#32 = .ok (.tblrd 0x00#8) ∧
    decode 0x010000FF#32 = .ok (.tblrd 0xFF#8) ∧ (decode 0x01000100#32).toOption = none ∧
    decode 0x02000000#32 = .ok .crcclr ∧ (decode 0x02000001#32).toOption = none ∧
    decode 0x03000031#32 = .ok (.crcupd 0x31#8) ∧ decode 0x04000000#32 = .ok .chksum ∧
    (decode 0x04800000#32).toOption = none ∧ decode 0x05000000#32 = .ok .tagext ∧
    decode 0x06000000#32 = .ok .slotred ∧ decode 0x07000000#32 = .ok .keyslot ∧
    (decode 0x070000FF#32).toOption = none ∧ (decode 0x08000000#32).toOption = none ∧
    (decode 0xFF000000#32).toOption = none

/-- When the next move is a legal CMD write of a word that decodes to command i, FAULT = 0 and no other agent writes in
the command's region meanwhile, the step is exec of i at the state with that move taken off; the other agents' writes
then land in key memory. With no such writes the step is exec of i and nothing more. That a step takes its move from
the list of moves to come is the model's choice (log 4), and so is that the other agents' writes stand in the move and
land after the command (log 7). (derived: 10_state.md section 3, 20_memory.md section 6) -/
def Obligations.StepRunsTheDecodedCommand : Prop :=
  (∀ (s : State) (w : Word) (i : Instr) (es : List Event),
    s.pending = .access (.wr 0x00#6 4 w) [] :: es → s.halted = false → decode w = .ok i →
    step s = exec i (s.setPending es)) ∧
  ∀ (s t : State) (w : Word) (i : Instr) (es : List Event) (during : List (Word × Byte)),
    s.pending = .access (.wr 0x00#6 4 w) during :: es → s.halted = false → decode w = .ok i →
    (∀ c ∈ during, readsKey i = true → s.lenNegative = false →
      c.1.toNat < s.addr.toNat ∨ s.addr.toNat + s.keyLen ≤ c.1.toNat) →
    exec i (s.setPending es) = .next t →
    step s = .next (t.setMem (t.mem.storeAll during))

/-- When no move is pending, a step answers the same state: between host accesses the core does nothing. That the moves
stand in the state is the model's choice (log 4). (derived: 60_exceptions.md section 7, 60_exceptions.md section 8) -/
def Obligations.IdleStepChangesNothing : Prop :=
  ∀ s : State, s.pending = [] → step s = .next s

/-- The ten registers stand at the offsets of the map; an RD is legal exactly at four bytes, at a register's offset, for
every register but CMD; a WR exactly for CMD, ADDR and LEN. A legal RD returns the register's value and changes
nothing; a legal WR of ADDR or LEN stores the word, of CMD issues it. An illegal access raises BUS with its offset, or
records nothing when FAULT = 1 already, and an illegal RD returns 0. (stated: R23) -/
def Obligations.RegisterAccessFollowsTheMap : Prop :=
  (offsetOf .cmd = 0x00#6 ∧ offsetOf .addr = 0x04#6 ∧ offsetOf .len = 0x08#6 ∧ offsetOf .crc = 0x0C#6 ∧
    offsetOf .result = 0x10#6 ∧ offsetOf .ekoff = 0x14#6 ∧ offsetOf .eklen = 0x18#6 ∧
    offsetOf .status = 0x1C#6 ∧ offsetOf .finfo = 0x20#6 ∧ offsetOf .nslots = 0x24#6) ∧
  (∀ o n r, (Access.rd o n).target = some r ↔ n = 4 ∧ o = offsetOf r ∧ r ≠ .cmd) ∧
  (∀ o n w r, (Access.wr o n w).target = some r ↔
    n = 4 ∧ o = offsetOf r ∧ (r = .cmd ∨ r = .addr ∨ r = .len)) ∧
  (∀ (s : State) o r, (Access.rd o 4).target = some r →
    performAccess s (.rd o 4) = .next { s with reads := s.reads ++ [s.readReg r] }) ∧
  (∀ (s : State) w, performAccess s (.wr 0x04#6 4 w) = .next { s with addr := w } ∧
    performAccess s (.wr 0x08#6 4 w) = .next { s with len := w } ∧
    performAccess s (.wr 0x00#6 4 w) = issue s w) ∧
  (∀ (s : State) o n, (Access.rd o n).target = none →
    performAccess s (.rd o n) = .next
      { (if s.halted then s else s.faulted .bus (o.setWidth 32)) with reads := s.reads ++ [0x00000000#32] }) ∧
  ∀ (s : State) o n w, (Access.wr o n w).target = none →
    performAccess s (.wr o n w) = .next (if s.halted then s else s.faulted .bus (o.setWidth 32))

/-- Every access at an offset from 0x28 to 0x3F, of any kind and size, reaches no register, raises BUS with that offset
when FAULT = 0, and a read there returns 0. (derived: 10_state.md section 3) -/
def Obligations.UnmappedOffsetsAreIllegal : Prop :=
  ∀ (s : State) (o : BitVec 6) (n : Nat) (w : Word), 0x28#6 ≤ o →
    (Access.rd o n).target = none ∧ (Access.wr o n w).target = none ∧
    (s.halted = false →
      performAccess s (.rd o n) = .next
        { s.faulted .bus (o.setWidth 32) with reads := s.reads ++ [0x00000000#32] } ∧
      performAccess s (.wr o n w) = .next (s.faulted .bus (o.setWidth 32)))

/-- Reading CRC returns the 16-bit register zero-extended; ADDR, LEN, RESULT, EKOFF, EKLEN and FINFO return their 32 bits.
No register, no byte of key memory and no later move changes. (derived: 10_state.md section 2, 10_state.md section 3) -/
def Obligations.ReadsReturnTheRegisters : Prop :=
  ∀ s : State,
    performAccess s (.rd 0x04#6 4) = .next { s with reads := s.reads ++ [s.addr] } ∧
    performAccess s (.rd 0x08#6 4) = .next { s with reads := s.reads ++ [s.len] } ∧
    performAccess s (.rd 0x0C#6 4) = .next { s with reads := s.reads ++ [s.crc.setWidth 32] } ∧
    performAccess s (.rd 0x10#6 4) = .next { s with reads := s.reads ++ [s.result] } ∧
    performAccess s (.rd 0x14#6 4) = .next { s with reads := s.reads ++ [s.ekoff] } ∧
    performAccess s (.rd 0x18#6 4) = .next { s with reads := s.reads ++ [s.eklen] } ∧
    performAccess s (.rd 0x20#6 4) = .next { s with reads := s.reads ++ [s.finfo] }

/-- Reading STATUS returns a word whose bit 0 is FAULT, bit 1 is TAG, bits 7..4 are FCAUSE, and whose bits 3, 2 and 31..8
are 0, in every state. (derived: 10_state.md section 3) -/
def Obligations.StatusReadShowsItsFields : Prop :=
  ∀ s : State, ∃ v : Word,
    performAccess s (.rd 0x1C#6 4) = .next { s with reads := s.reads ++ [v] } ∧
    v.getLsbD 0 = statusFault s.status ∧ v.getLsbD 1 = statusTag s.status ∧
    v.extractLsb' 4 4 = statusCause s.status ∧
    ∀ j, (j = 2 ∨ j = 3 ∨ 8 ≤ j) → v.getLsbD j = false

/-- A legal read of NSLOTS returns 0x00004000 in every state, so no command and no reset changes it. (stated: R32) -/
def Obligations.NslotsReadsAsTheConstant : Prop :=
  (∀ s : State, performAccess s (.rd 0x24#6 4) = .next { s with reads := s.reads ++ [0x00004000#32] }) ∧
    (∀ (i : Instr) (s t : State), exec i s = .next t → t.readReg .nslots = s.readReg .nslots) ∧
    (∀ s : State, s.resetCore.readReg .nslots = s.readReg .nslots) ∧
    (∀ (n : Nat) (w : Word), (Access.wr 0x24#6 n w).target = none) ∧
    (0x00004000#32).toNat = Config.nslots

/-- LEN is negative exactly when it is below 0 as a two's-complement number, and the length used is its value otherwise,
at most 2^31 - 1. (derived: 10_state.md section 3, 92_eei_decisions.md D5) -/
def Obligations.LengthIsTwosComplement : Prop :=
  ∀ s : State, (s.lenNegative = true ↔ s.len.toInt < 0) ∧
    (s.lenNegative = false → (s.keyLen : Int) = s.len.toInt) ∧ s.keyLen ≤ 2 ^ 31 - 1

/-- If a move changes ADDR, it is RESET or a legal host write of ADDR, which then holds the written word; the same for
LEN. No command changes either. (derived: 10_state.md section 1, 10_state.md section 3) -/
def Obligations.AddrAndLenAreTheHosts : Prop :=
  (∀ (i : Instr) (s t : State), exec i s = .next t → t.addr = s.addr ∧ t.len = s.len) ∧
  ∀ (s t : State) (e : Event), performEvent s e = .next t →
    (t.addr = s.addr ∨ e = .reset ∨ ∃ w d, e = .access (.wr 0x04#6 4 w) d ∧ t.addr = w) ∧
    (t.len = s.len ∨ e = .reset ∨ ∃ w d, e = .access (.wr 0x08#6 4 w) d ∧ t.len = w)

/-- A move that is neither RESET nor a legal CMD write, made while FAULT = 0, of a word that decodes to a command leaves
CRC, RESULT, EKOFF, EKLEN and TAG as they were. (derived: 10_state.md section 1, 10_state.md section 6) -/
def Obligations.ResultsAreTheCommands : Prop :=
  ∀ (s t : State) (e : Event), performEvent s e = .next t → e ≠ .reset →
    (¬ ∃ w d i, e = .access (.wr 0x00#6 4 w) d ∧ s.halted = false ∧ decode w = .ok i) →
    t.crc = s.crc ∧ t.result = s.result ∧ t.ekoff = s.ekoff ∧ t.eklen = s.eklen ∧
      statusTag t.status = statusTag s.status

/-- If a move changes FAULT, FCAUSE or FINFO, it is RESET, or FAULT was 0 before it and is 1 after it. (derived:
10_state.md section 1, 60_exceptions.md section 2) -/
def Obligations.FaultRegistersAreTheFaultMechanisms : Prop :=
  ∀ (s t : State) (e : Event), performEvent s e = .next t →
    (statusFault t.status = statusFault s.status ∧ statusCause t.status = statusCause s.status ∧
      t.finfo = s.finfo) ∨ e = .reset ∨ (s.halted = false ∧ t.halted = true)

/-- After a command, and after any host access, every address of key memory reads as before. Over all moves, RESET
included, an address reads otherwise than before only when the move is the platform's or is an access during which
another agent writes that address. That other agents' writes and the platform's changes are moves of this form is the
model's choice (logs 6, 7). (derived: 20_memory.md section 1) -/
def Obligations.NoCommandWritesKeyMemory : Prop :=
  (∀ (i : Instr) (s t : State), exec i s = .next t → ∀ x, t.mem.byte? x = s.mem.byte? x) ∧
  (∀ (s t : State) (a : Access), performAccess s a = .next t → ∀ x, t.mem.byte? x = s.mem.byte? x) ∧
  ∀ (s t : State) (e : Event), performEvent s e = .next t →
    ∀ x, t.mem.byte? x = s.mem.byte? x ∨ (∃ cells, e = .platform cells) ∨
      ∃ a during, e = .access a during ∧ ∃ c ∈ during, c.1.toNat = x

/-- CHKSUM, TAGEXT and KEYSLOT are the memory commands. While FAULT = 0: a negative LEN raises LEN_NEGATIVE with LEN; the
least offset whose byte is not admitted, or lies at 2^32 or above, raises REGION with that offset; nothing else
changes. With n = 0 no fault occurs, whatever ADDR and key memory are. With every byte admitted the command continues
without a fault. A region past 2^32 - 1 never wraps. (stated: R54) -/
def Obligations.RegionCheckComesFirst : Prop :=
  (∀ i : Instr, readsKey i = true ↔ i = .chksum ∨ i = .tagext ∨ i = .keyslot) ∧
  ∀ (s : State) (i : Instr), readsKey i = true → s.halted = false →
    (s.lenNegative = true → exec i s = .next (s.faulted .lenNegative s.len)) ∧
    (∀ k, s.FirstGap k → exec i s = .next (s.faulted .region (BitVec.ofNat 32 k))) ∧
    (s.lenNegative = false → s.keyLen = 0 → ∃ t, exec i s = .next t ∧ t.halted = false) ∧
    (s.lenNegative = false → (∀ k < s.keyLen, (s.mem.byte? (s.addr.toNat + k)).isSome = true) →
      ∃ t, exec i s = .next t ∧ t.halted = false) ∧
    (s.lenNegative = false → 2 ^ 32 < s.addr.toNat + s.keyLen →
      ∃ k, s.FirstGap k ∧ s.addr.toNat + k ≤ 2 ^ 32)

/-- If two states differ only in key memory and their memories agree on the region ADDR to ADDR + n - 1, every command
does the same to both: each keeps its own memory and all else comes out equal. (derived: 20_memory.md section 2,
70_reset_and_hazards.md section 5) -/
def Obligations.OnlyTheRegionMatters : Prop :=
  ∀ (i : Instr) (s t : State) (m : Memory), s.SameRegion m → exec i s = .next t →
    exec i (s.setMem m) = .next (t.setMem m)

/-- An address is in the region in progress exactly when the access is a legal CMD write, FAULT = 0, of a memory command,
LEN is not negative and ADDR <= address < ADDR + n. A move during which another agent writes such an address is
refused; otherwise the access does just what it does with no such writes, and the writes land in key memory: an
address that was admitted reads the byte listed last for it, or as before when none is listed, and an address that was
not admitted stays so. That such writes stand in the move, and land after the access at admitted addresses only, is
the model's choice (log 7). (derived: 20_memory.md section 2, 20_memory.md section 6) -/
def Obligations.RegionMustStayUnwritten : Prop :=
  (∀ (s : State) (a : Access) (x : Word), s.inRegion a x = true ↔
    (∃ w i, a = .wr 0x00#6 4 w ∧ decode w = .ok i ∧ readsKey i = true) ∧ s.halted = false ∧
      s.lenNegative = false ∧ s.addr.toNat ≤ x.toNat ∧ x.toNat < s.addr.toNat + s.keyLen) ∧
  (∀ (s : State) (a : Access) (during : List (Word × Byte)), (∃ c ∈ during, s.inRegion a c.1 = true) →
    ∃ x, s.inRegion a x = true ∧ performEvent s (.access a during) = .refused (.regionWritten x)) ∧
  ∀ (s : State) (a : Access) (during : List (Word × Byte)), (∀ c ∈ during, s.inRegion a c.1 = false) →
    ∃ t, performAccess s a = .next t ∧
      performEvent s (.access a during) = .next (t.setMem (t.mem.storeAll during)) ∧
      ∀ x : Nat,
        (s.mem.byte? x = none → (t.mem.storeAll during).byte? x = none) ∧
        ∀ b, s.mem.byte? x = some b →
          (t.mem.storeAll during).byte? x =
            some (((during.reverse.find? (fun c => c.1.toNat == x)).map (·.2)).getD b)

/-- A platform move changes key memory alone, and then an address reads the byte of the last cell listed for it, or is not
admitted when none is listed. That the platform's memory is a list of cells is the model's choice (logs 3, 6).
(derived: 20_memory.md section 1, 70_reset_and_hazards.md section 5) -/
def Obligations.PlatformMemoryReadsAsListed : Prop :=
  ∀ (s : State) (cells : List (Word × Byte)), ∃ m : Memory,
    performEvent s (.platform cells) = .next { s with mem := m } ∧ m.wf ∧
    ∀ x : Nat, m.byte? x = (cells.reverse.find? (fun c => c.1.toNat == x)).map (·.2)

/-- While FAULT = 0, raising a cause sets FAULT, puts the cause's code in FCAUSE and the information in FINFO, keeps TAG
and the reserved bits, and changes no other state. While FAULT = 1 it changes nothing. A command that faults changes
no register but STATUS and FINFO, and TAG not at all. (stated: R151) -/
def Obligations.RaiseRecordsTheFirstFault : Prop :=
  (∀ (s : State) (c : FaultCause) (v : Word), s.halted = true → s.raise c v = s) ∧
  (∀ (s : State) (c : FaultCause) (v : Word), s.halted = false →
    ∃ st : Word, s.raise c v = { s with status := st, finfo := v } ∧ statusFault st = true ∧
      statusCause st = causeCode c ∧ statusTag st = statusTag s.status ∧
      st &&& ~~~statusFields = s.status &&& ~~~statusFields) ∧
  ∀ (i : Instr) (s t : State), exec i s = .next t → s.halted = false → t.halted = true →
    t = { s with status := t.status, finfo := t.finfo } ∧ statusTag t.status = statusTag s.status

/-- If FAULT = 0 before a host access and 1 after it, then: the access was illegal and FCAUSE = 4, FINFO = the offset; or
it was a legal CMD write of an illegal word and FCAUSE = 1, FINFO = the word; or of a memory command with negative LEN
and FCAUSE = 2, FINFO = LEN; or of one whose region first fails at k and FCAUSE = 3, FINFO = k. Each of these
conditions does raise that fault. TBLRD, CRCCLR, CRCUPD and SLOTRED raise none. FCAUSE and FINFO are 0 after reset and
stay as they are while no fault is raised. (stated: R150) -/
def Obligations.FaultsAreThoseOfTheTable : Prop :=
  (causeCode .illegalCmd = 1#4 ∧ causeCode .lenNegative = 2#4 ∧ causeCode .region = 3#4 ∧
    causeCode .bus = 4#4) ∧
  (∀ (s t : State) (a : Access), s.halted = false → performAccess s a = .next t → t.halted = true →
    (a.target = none ∧ statusCause t.status = 4#4 ∧ t.finfo = a.offset.setWidth 32) ∨
    ∃ w, a = .wr 0x00#6 4 w ∧
      (((∃ e, decode w = .error e) ∧ statusCause t.status = 1#4 ∧ t.finfo = w) ∨
      ∃ i, decode w = .ok i ∧ readsKey i = true ∧
        ((s.lenNegative = true ∧ statusCause t.status = 2#4 ∧ t.finfo = s.len) ∨
        ∃ k, s.FirstGap k ∧ statusCause t.status = 3#4 ∧ t.finfo = BitVec.ofNat 32 k))) ∧
  (∀ (s : State) (a : Access), s.halted = false → a.target = none →
    ∃ t, performAccess s a = .next t ∧ t.halted = true ∧ statusCause t.status = 4#4 ∧
      t.finfo = a.offset.setWidth 32) ∧
  (∀ w, (∃ e, decode w = .error e) → RaisesIllegal w) ∧
  (∀ (s : State) (i : Instr), s.halted = false → readsKey i = true →
    (s.lenNegative = true → exec i s = .next (s.faulted .lenNegative s.len)) ∧
    ∀ k, s.FirstGap k → exec i s = .next (s.faulted .region (BitVec.ofNat 32 k))) ∧
  (∀ (s t : State) (i : Instr), readsKey i = false → exec i s = .next t → t.halted = s.halted) ∧
  (statusCause State.reset.status = 0#4 ∧ State.reset.finfo = 0x00000000#32) ∧
  ∀ (s t : State) (a : Access), s.halted = false → performAccess s a = .next t → t.halted = false →
    statusCause t.status = statusCause s.status ∧ t.finfo = s.finfo

/-- While FAULT = 1, every move that is performed and is not RESET leaves FAULT = 1 and keeps FCAUSE and FINFO. An illegal
access still has no effect on any register, and an illegal RD still returns 0. (stated: R152) -/
def Obligations.FirstFaultIsKept : Prop :=
  (∀ (s t : State) (e : Event), s.halted = true → e ≠ .reset → performEvent s e = .next t →
    t.halted = true ∧ statusCause t.status = statusCause s.status ∧ t.finfo = s.finfo) ∧
  (∀ (s : State) o n w, s.halted = true → (Access.wr o n w).target = none →
    performAccess s (.wr o n w) = .next s) ∧
  ∀ (s : State) o n, s.halted = true → (Access.rd o n).target = none →
    performAccess s (.rd o n) = .next { s with reads := s.reads ++ [0x00000000#32] }

/-- While FAULT = 1 a legal CMD write of any word changes nothing and raises nothing, and no command has any effect; every
legal read returns its register and writes of ADDR and LEN store their word. A move that ends the halt is RESET.
(stated: R153) -/
def Obligations.HaltedCoreIgnoresCommands : Prop :=
  ∀ s : State, s.halted = true →
    (∀ w, performAccess s (.wr 0x00#6 4 w) = .next s) ∧
    (∀ i, exec i s = .next s) ∧
    (∀ r, r ≠ .cmd → performAccess s (.rd (offsetOf r) 4) = .next { s with reads := s.reads ++ [s.readReg r] }) ∧
    (∀ w, performAccess s (.wr 0x04#6 4 w) = .next { s with addr := w }) ∧
    (∀ w, performAccess s (.wr 0x08#6 4 w) = .next { s with len := w }) ∧
    ∀ e t, performEvent s e = .next t → t.halted = false → e = .reset

/-- From a state with FAULT = 1, after any number of steps none of which performs RESET, FAULT is still 1, FCAUSE, FINFO
and TAG are unchanged, and CRC, RESULT, EKOFF and EKLEN hold what they held. That the moves stand in the state is the
model's choice (log 4). (derived: 60_exceptions.md section 2, 60_exceptions.md section 4, 70_reset_and_hazards.md
section 3) -/
def Obligations.HaltLastsUntilReset : Prop :=
  ∀ (k : Nat) (s t : State), s.halted = true → .reset ∉ s.pending.take k → core.run k s = .next t →
    t.halted = true ∧ statusCause t.status = statusCause s.status ∧ t.finfo = s.finfo ∧
      statusTag t.status = statusTag s.status ∧ t.crc = s.crc ∧ t.result = s.result ∧
      t.ekoff = s.ekoff ∧ t.eklen = s.eklen

/-- An illegal access raises BUS and its data is never decoded; else a CMD write while FAULT = 1 is ignored; else an
illegal word raises ILLEGAL_CMD, whatever LEN and the region are; else a memory command with negative LEN raises
LEN_NEGATIVE, whatever its region is; else the least failing offset raises REGION. (stated: R154) -/
def Obligations.FaultPriority : Prop :=
  (∀ (s : State) o n w, s.halted = false → (Access.wr o n w).target = none →
    performAccess s (.wr o n w) = .next (s.faulted .bus (o.setWidth 32))) ∧
  (∀ (s : State) o n, s.halted = false → (Access.rd o n).target = none →
    performAccess s (.rd o n) = .next { s.faulted .bus (o.setWidth 32) with reads := s.reads ++ [0x00000000#32] }) ∧
  (∀ n w, n ≠ 4 → (Access.wr 0x00#6 n w).target = none) ∧
  (∀ (s : State) w, s.halted = true → performAccess s (.wr 0x00#6 4 w) = .next s) ∧
  (∀ (s : State) w, s.halted = false → (∃ e, decode w = .error e) →
    performAccess s (.wr 0x00#6 4 w) = .next (s.faulted .illegalCmd w)) ∧
  ∀ (s : State) w i, s.halted = false → decode w = .ok i → readsKey i = true →
    (s.lenNegative = true → performAccess s (.wr 0x00#6 4 w) = .next (s.faulted .lenNegative s.len)) ∧
    ∀ k, s.FirstGap k →
      performAccess s (.wr 0x00#6 4 w) = .next (s.faulted .region (BitVec.ofNat 32 k))

/-- In the state after reset CRC, ADDR, LEN, RESULT, EKOFF, EKLEN, STATUS and FINFO are 0, NSLOTS reads 16384 and TABLE
holds the 256 entries of R100. (stated: R37) -/
def Obligations.ResetStateIsAsTabled : Prop :=
  State.reset.crc = 0x0000#16 ∧ State.reset.addr = 0#32 ∧ State.reset.len = 0#32 ∧
    State.reset.result = 0#32 ∧ State.reset.ekoff = 0#32 ∧ State.reset.eklen = 0#32 ∧
    State.reset.status = 0#32 ∧ State.reset.finfo = 0#32 ∧
    statusFault State.reset.status = false ∧ statusTag State.reset.status = false ∧
    statusCause State.reset.status = 0#4 ∧
    State.reset.readReg .nslots = 0x00004000#32 ∧
    tableRom.length = 256 ∧ ∀ i : Byte, tableRom[i.toNat]? = some (tableEntry i)

/-- The RESET move answers a next state in which CRC, ADDR, LEN, RESULT, EKOFF, EKLEN, STATUS and FINFO are 0 and the core
is not halted. NSLOTS and TABLE are untouched. A move after which FAULT has gone from 1 to 0 is RESET. (stated: R180) -/
def Obligations.ResetClearsEveryRegister : Prop :=
  (∀ s : State, ∃ t, performEvent s .reset = .next t ∧ t.crc = 0x0000#16 ∧ t.addr = 0#32 ∧ t.len = 0#32 ∧
    t.result = 0#32 ∧ t.ekoff = 0#32 ∧ t.eklen = 0#32 ∧ t.status = 0#32 ∧ t.finfo = 0#32 ∧
    t.halted = false ∧ statusTag t.status = false ∧ statusCause t.status = 0#4 ∧
    t.readReg .nslots = s.readReg .nslots ∧
    ∀ k, exec (.tblrd k) t = .next { t with result := (tableEntry k).setWidth 32 }) ∧
  ∀ (s t : State) (e : Event), performEvent s e = .next t → s.halted = true → t.halted = false → e = .reset

/-- While FAULT = 0, TBLRD i completes with RESULT = zext_32(TABLE[i]) and every other part of the state as it was, for
every i. RESULT[31:16] is 0; TABLE[0x00] = 0x0000, TABLE[0xFF] = 0x1EF0, TABLE[0x01] = 0x1021. A word with OPC 0x01 is
TBLRD of its IMM8 when RSV = 0, and raises ILLEGAL_CMD otherwise. (stated: R102) -/
def Obligations.TblrdReadsTheTable : Prop :=
  (∀ (s : State) (k : Byte), s.halted = false →
    exec (.tblrd k) s = .next { s with result := (tableEntry k).setWidth 32 }) ∧
  (∀ k : Byte, ((tableEntry k).setWidth 32 : Word).extractLsb' 16 16 = 0#16) ∧
  (∀ w : Word, w.extractLsb' 24 8 = 0x01#8 →
    (w.extractLsb' 8 16 = 0#16 → decode w = .ok (.tblrd (w.extractLsb' 0 8))) ∧
    (w.extractLsb' 8 16 ≠ 0#16 → RaisesIllegal w)) ∧
  tableEntry 0x00#8 = 0x0000#16 ∧ tableEntry 0xFF#8 = 0x1EF0#16 ∧ tableEntry 0x01#8 = 0x1021#16

/-- While FAULT = 0, CRCCLR completes with CRC = 0 and RESULT = 0 and all else as it was, whatever CRC held. With OPC 0x02
only the word 0x02000000 is CRCCLR; every other raises ILLEGAL_CMD. (stated: R112) -/
def Obligations.CrcclrClearsTheRegister : Prop :=
  (∀ s : State, s.halted = false →
    exec .crcclr s = .next { s with crc := 0x0000#16, result := 0x00000000#32 }) ∧
  decode 0x02000000#32 = .ok .crcclr ∧
  ∀ w : Word, w.extractLsb' 24 8 = 0x02#8 → w ≠ 0x02000000#32 → RaisesIllegal w

/-- While FAULT = 0, CRCUPD b completes with CRC the update step of the old CRC and b, RESULT that value zero-extended,
all else as it was. The corner cases and the example hold. With OPC 0x03 a word is CRCUPD of its IMM8 when RSV = 0 and
raises ILLEGAL_CMD otherwise. (stated: R113) -/
def Obligations.CrcupdFoldsOneByte : Prop :=
  (∀ (s : State) (b : Byte), s.halted = false →
    exec (.crcupd b) s = .next { s with
      crc := tableEntry (s.crc.extractLsb' 8 8 ^^^ b) ^^^ (s.crc <<< 8)
      result := (tableEntry (s.crc.extractLsb' 8 8 ^^^ b) ^^^ (s.crc <<< 8)).setWidth 32 }) ∧
  crcStep 0x0000#16 0x00#8 = 0x0000#16 ∧ crcStep 0x0100#16 0x01#8 = 0x0000#16 ∧
  crcStep 0xFFFF#16 0xFF#8 = 0xFF00#16 ∧ crcStep 0x0000#16 0x31#8 = 0x2672#16 ∧
  (∀ w : Word, w.extractLsb' 24 8 = 0x03#8 →
    (w.extractLsb' 8 16 = 0#16 → decode w = .ok (.crcupd (w.extractLsb' 0 8))) ∧
    (w.extractLsb' 8 16 ≠ 0#16 → RaisesIllegal w))

/-- While FAULT = 0 and the key xs stands at ADDR with length LEN, CHKSUM completes with CRC = crc16(xs), RESULT = zext_32
of it, all else as it was, whatever CRC held. It raises LEN_NEGATIVE, then REGION at the least failing offset,
changing neither. LEN = 0 gives 0, whatever ADDR is; a key of zero bytes gives 0; a length whose bytes are all
admitted is legal; ADDR = 0xFFFFFFFF with LEN = 2 raises REGION with 1. crc16("123456789") = 0x31C3. (stated: R114) -/
def Obligations.ChksumOfTheKey : Prop :=
  (∀ (s : State) (xs : List Byte), s.halted = false → s.HoldsKey xs →
    exec .chksum s = .next { s with crc := crc16 xs, result := (crc16 xs).setWidth 32 }) ∧
  (∀ s : State, s.halted = false → s.lenNegative = true →
    exec .chksum s = .next (s.faulted .lenNegative s.len)) ∧
  (∀ (s : State) (k : Nat), s.halted = false → s.FirstGap k →
    exec .chksum s = .next (s.faulted .region (BitVec.ofNat 32 k))) ∧
  (∀ s : State, s.halted = false → s.len = 0#32 →
    exec .chksum s = .next { s with crc := 0x0000#16, result := 0x00000000#32 }) ∧
  (∀ m : Nat, crc16 (List.replicate m 0x00#8) = 0x0000#16) ∧
  (∀ s : State, s.lenNegative = false → (∀ k < s.keyLen, (s.mem.byte? (s.addr.toNat + k)).isSome = true) →
    ∃ xs, s.HoldsKey xs) ∧
  (∀ s : State, s.halted = false → s.addr = 0xFFFFFFFF#32 → s.len = 2#32 → s.mem.admitted 0xFFFFFFFF#32 = true →
    exec .chksum s = .next (s.faulted .region 1#32)) ∧
  crc16 [0x31#8, 0x32#8, 0x33#8, 0x34#8, 0x35#8, 0x36#8, 0x37#8, 0x38#8, 0x39#8] = 0x31C3#16 ∧
  decode 0x04000000#32 = .ok .chksum ∧
  ∀ w : Word, w.extractLsb' 24 8 = 0x04#8 → w ≠ 0x04000000#32 → RaisesIllegal w

/-- While FAULT = 0 and the key xs stands at ADDR with length LEN, TAGEXT completes with EKOFF, EKLEN and TAG as
tagExtract(xs) gives them and RESULT = TAG zero-extended, all else as it was. It raises LEN_NEGATIVE, then REGION over
the whole region, writing none of them. The fifteen corner keys of the rule give the listed values. (stated: R131) -/
def Obligations.TagextFindsTheEffectiveKey : Prop :=
  (∀ (s : State) (xs : List Byte), s.halted = false → s.HoldsKey xs →
    ∃ st : Word, exec .tagext s = .next { s with
      ekoff := BitVec.ofNat 32 (tagExtract xs).off
      eklen := BitVec.ofNat 32 (tagExtract xs).elen
      status := st
      result := if (tagExtract xs).tag then 0x00000001#32 else 0x00000000#32 } ∧
      statusTag st = (tagExtract xs).tag ∧ (∀ j, j ≠ 1 → st.getLsbD j = s.status.getLsbD j) ∧
      (tagExtract xs).off ≤ xs.length ∧ xs.length < 2 ^ 31) ∧
  (∀ s : State, s.halted = false → s.lenNegative = true →
    exec .tagext s = .next (s.faulted .lenNegative s.len)) ∧
  (∀ (s : State) (k : Nat), s.halted = false → s.FirstGap k →
    exec .tagext s = .next (s.faulted .region (BitVec.ofNat 32 k))) ∧
  decode 0x05000000#32 = .ok .tagext ∧
  (∀ w : Word, w.extractLsb' 24 8 = 0x05#8 → w ≠ 0x05000000#32 → RaisesIllegal w) ∧
  tagExtract [] = ⟨0, 0, false⟩ ∧
  tagExtract [0x7B#8] = ⟨0, 1, false⟩ ∧
  tagExtract [0x7D#8] = ⟨0, 1, false⟩ ∧
  tagExtract [0x7B#8, 0x7D#8] = ⟨0, 2, false⟩ ∧
  tagExtract [0x7D#8, 0x7B#8] = ⟨0, 2, false⟩ ∧
  tagExtract [0x7B#8, 0x61#8, 0x7D#8] = ⟨1, 1, true⟩ ∧
  tagExtract [0x7B#8, 0x62#8, 0x61#8, 0x72#8] = ⟨0, 4, false⟩ ∧
  tagExtract [0x62#8, 0x61#8, 0x72#8, 0x7D#8] = ⟨0, 4, false⟩ ∧
  tagExtract [0x7B#8, 0x7B#8, 0x7D#8, 0x7D#8] = ⟨1, 1, true⟩ ∧
  tagExtract [0x7B#8, 0x7D#8, 0x62#8, 0x61#8, 0x72#8] = ⟨0, 5, false⟩ ∧
  tagExtract [0x66#8, 0x6F#8, 0x6F#8, 0x7B#8, 0x7D#8, 0x7B#8, 0x62#8, 0x61#8, 0x72#8, 0x7D#8] = ⟨0, 10, false⟩ ∧
  tagExtract [0x66#8, 0x6F#8, 0x6F#8, 0x7B#8, 0x7B#8, 0x62#8, 0x61#8, 0x72#8, 0x7D#8, 0x7D#8] = ⟨4, 4, true⟩ ∧
  tagExtract [0x66#8, 0x6F#8, 0x6F#8, 0x7B#8, 0x62#8, 0x61#8, 0x72#8, 0x7D#8, 0x7B#8, 0x7A#8, 0x61#8, 0x70#8, 0x7D#8] = ⟨4, 3, true⟩ ∧
  tagExtract [0x66#8, 0x6F#8, 0x6F#8, 0x7D#8, 0x62#8, 0x61#8, 0x72#8, 0x7B#8, 0x7A#8, 0x61#8, 0x70#8, 0x7D#8] = ⟨8, 3, true⟩ ∧
  tagExtract [0x66#8, 0x6F#8, 0x6F#8, 0x7B#8, 0x62#8, 0x61#8, 0x72#8, 0x7D#8, 0x62#8, 0x61#8, 0x7A#8] = ⟨4, 3, true⟩

/-- While FAULT = 0, SLOTRED completes with RESULT = CRC mod 16384 zero-extended, all else as it was. The corner cases and
the example hold. With OPC 0x06 only the word 0x06000000 is SLOTRED; every other raises ILLEGAL_CMD. (stated: R141) -/
def Obligations.SlotredReducesTheRegister : Prop :=
  (∀ s : State, s.halted = false →
    exec .slotred s = .next { s with result := BitVec.ofNat 32 (s.crc.toNat % 16384) }) ∧
  slotWord 0x0000#16 = 0#32 ∧ slotWord 0x3FFF#16 = 16383#32 ∧ slotWord 0x4000#16 = 0#32 ∧
  slotWord 0xFFFF#16 = 16383#32 ∧ slotWord 0x8000#16 = 0#32 ∧ slotWord 0x31C3#16 = 12739#32 ∧
  slotWord 0xAF96#16 = 12182#32 ∧
  (∀ c : Half, slotWord c = BitVec.ofNat 32 (c.toNat % 16384)) ∧
  decode 0x06000000#32 = .ok .slotred ∧
  ∀ w : Word, w.extractLsb' 24 8 = 0x06#8 → w ≠ 0x06000000#32 → RaisesIllegal w

/-- While FAULT = 0 and the key xs stands at ADDR with length LEN, KEYSLOT completes with EKOFF, EKLEN and TAG as
tagExtract(xs) gives them, CRC = crc16 of the effective key and RESULT = CRC mod 16384, all else as it was, whatever
CRC held. It raises LEN_NEGATIVE, then REGION over the whole region, writing none of them. LEN = 0 gives zeros; "{}",
"foo{}{bar}", "bar" and "foo" give the listed values. (stated: R142) -/
def Obligations.KeyslotOfTheKey : Prop :=
  (∀ (s : State) (xs : List Byte), s.halted = false → s.HoldsKey xs →
    ∃ st : Word, exec .keyslot s = .next { s with
      ekoff := BitVec.ofNat 32 (tagExtract xs).off
      eklen := BitVec.ofNat 32 (tagExtract xs).elen
      status := st
      crc := crc16 ((xs.drop (tagExtract xs).off).take (tagExtract xs).elen)
      result := BitVec.ofNat 32
        ((crc16 ((xs.drop (tagExtract xs).off).take (tagExtract xs).elen)).toNat % 16384) } ∧
      statusTag st = (tagExtract xs).tag ∧ ∀ j, j ≠ 1 → st.getLsbD j = s.status.getLsbD j) ∧
  (∀ s : State, s.halted = false → s.lenNegative = true →
    exec .keyslot s = .next (s.faulted .lenNegative s.len)) ∧
  (∀ (s : State) (k : Nat), s.halted = false → s.FirstGap k →
    exec .keyslot s = .next (s.faulted .region (BitVec.ofNat 32 k))) ∧
  (∀ s : State, s.halted = false → s.len = 0#32 →
    ∃ st : Word, exec .keyslot s = .next { s with
      ekoff := 0#32, eklen := 0#32, crc := 0x0000#16, result := 0#32, status := st } ∧ statusTag st = false) ∧
  crc16 (effectiveKey [0x7B#8, 0x7D#8]) = 0x7B99#16 ∧ slotOf [0x7B#8, 0x7D#8] = 15257 ∧
  slotOf [0x66#8, 0x6F#8, 0x6F#8, 0x7B#8, 0x7D#8, 0x7B#8, 0x62#8, 0x61#8, 0x72#8, 0x7D#8] = 8363 ∧ slotOf [0x62#8, 0x61#8, 0x72#8] = 5061 ∧
  (tagExtract [0x66#8, 0x6F#8, 0x6F#8]).tag = false ∧ crc16 (effectiveKey [0x66#8, 0x6F#8, 0x6F#8]) = 0xAF96#16 ∧ slotOf [0x66#8, 0x6F#8, 0x6F#8] = 12182 ∧
  decode 0x07000000#32 = .ok .keyslot ∧
  ∀ w : Word, w.extractLsb' 24 8 = 0x07#8 → w ≠ 0x07000000#32 → RaisesIllegal w

/-- When exec answers a next state: ADDR, LEN, the moves to come, the values read and every byte of key memory are
unchanged by every command. TBLRD and SLOTRED change RESULT only; CRCCLR and CRCUPD change CRC and RESULT only; CHKSUM
changes CRC, RESULT and, when it faults, FAULT, FCAUSE and FINFO only; TAGEXT changes EKOFF, EKLEN, TAG, RESULT and
those, not CRC; KEYSLOT changes CRC, EKOFF, EKLEN, TAG, RESULT and those. The reserved bits of STATUS never change,
and FAULT, FCAUSE and FINFO are unchanged unless the command faults. (derived: 10_state.md section 6, 60_exceptions.md
section 2) -/
def Obligations.CommandsWriteOnlyTheirRegisters : Prop :=
  ∀ (i : Instr) (s t : State), exec i s = .next t →
    (t.addr = s.addr ∧ t.len = s.len ∧ t.pending = s.pending ∧ t.reads = s.reads ∧
      (∀ x, t.mem.byte? x = s.mem.byte? x) ∧
      t.status &&& ~~~statusFields = s.status &&& ~~~statusFields) ∧
    (t.halted = s.halted → statusCause t.status = statusCause s.status ∧ t.finfo = s.finfo) ∧
    match i with
    | .tblrd _ | .slotred =>
      t.crc = s.crc ∧ t.ekoff = s.ekoff ∧ t.eklen = s.eklen ∧ t.status = s.status ∧ t.finfo = s.finfo
    | .crcclr | .crcupd _ =>
      t.ekoff = s.ekoff ∧ t.eklen = s.eklen ∧ t.status = s.status ∧ t.finfo = s.finfo
    | .chksum =>
      t.ekoff = s.ekoff ∧ t.eklen = s.eklen ∧ statusTag t.status = statusTag s.status ∧
        (t.halted = s.halted → t.status = s.status)
    | .tagext => t.crc = s.crc
    | .keyslot => t.halted ≠ s.halted →
        t.crc = s.crc ∧ t.result = s.result ∧ t.ekoff = s.ekoff ∧ t.eklen = s.eklen

/-- A command performed while FAULT = 0 that raises no fault leaves RESULT in [0, 65535], so it is never negative as a
signed number. (derived: 10_state.md section 3) -/
def Obligations.EveryCommandLeavesASixteenBitResult : Prop :=
  ∀ (i : Instr) (s t : State), s.halted = false → exec i s = .next t → t.halted = false →
    t.result.extractLsb' 16 16 = 0#16 ∧ 0 ≤ t.result.toInt

/-- TABLE has 256 entries. One round doubles the value modulo 2^16 and XORs 0x1021 in exactly when the value was 2^15 or
more; TABLE[i] is eight such rounds from i times 256. (stated: R100) -/
def Obligations.TableIsBuiltByEightRounds : Prop :=
  (∀ v : Half, (crcRound v).toNat =
    if 2 ^ 15 ≤ v.toNat then (2 * v.toNat % 2 ^ 16) ^^^ 0x1021 else 2 * v.toNat % 2 ^ 16) ∧
  (∀ k : Byte, tableEntry k = crcRound^[8] (BitVec.ofNat 16 (256 * k.toNat))) ∧
  tableRom.length = 256 ∧ ∀ k : Byte, tableRom[k.toNat]? = some (tableEntry k)

/-- crcStep(r, b) is TABLE[(r >> 8)[7:0] XOR b] XOR the low 16 bits of r << 8; crc16 of the empty sequence is 0, and one
more byte at the end is one more step. (stated: R110, R111) -/
def Obligations.UpdateStepAndFold : Prop :=
  (∀ (r : Half) (b : Byte), crcStep r b = tableEntry ((r >>> 8).setWidth 8 ^^^ b) ^^^ (r <<< 8)) ∧
  crc16 [] = 0x0000#16 ∧ ∀ (xs : List Byte) (b : Byte), crc16 (xs ++ [b]) = crcStep (crc16 xs) b

/-- TABLE[0] = 0; TABLE[a XOR b] = TABLE[a] XOR TABLE[b] for all a and b; TABLE[i] = TABLE[i & 0xF0] XOR TABLE[i & 0x0F],
as in the example of index 0x11; TABLE[i] = crc16([i]). (stated: R103) -/
def Obligations.TableLaws : Prop :=
  tableEntry 0x00#8 = 0x0000#16 ∧
  (∀ a b : Byte, tableEntry (a ^^^ b) = tableEntry a ^^^ tableEntry b) ∧
  (∀ k : Byte, tableEntry k = tableEntry (k &&& 0xF0#8) ^^^ tableEntry (k &&& 0x0F#8)) ∧
  tableEntry 0x11#8 = 0x0210#16 ∧ tableEntry 0x10#8 = 0x1231#16 ∧ tableEntry 0x01#8 = 0x1021#16 ∧
  ∀ k : Byte, tableEntry k = crc16 [k]

/-- For every byte sequence, the fold of the table-driven update step gives the same checksum as XORing each byte into
bits 15..8 and doing eight shift-and-XOR rounds, with no table. (stated: R115) -/
def Obligations.TableFoldIsBitwiseDivision : Prop :=
  ∀ xs : List Byte, crcBitwise xs = crc16 xs

/-- crc16 is in [0, 65535] and 0 for the empty sequence; equal bytes give equal results; crc16("ab") = 0x74FF and
crc16("ba") = 0x11CF differ. (stated: R116) -/
def Obligations.ChecksumProperties : Prop :=
  (∀ xs : List Byte, (crc16 xs).toNat ≤ 65535) ∧ crc16 [] = 0x0000#16 ∧
  (∀ xs ys : List Byte, xs = ys → crc16 xs = crc16 ys) ∧
  crc16 [0x61#8, 0x62#8] = 0x74FF#16 ∧ crc16 [0x62#8, 0x61#8] = 0x11CF#16 ∧
  ∃ xs : List Byte, crc16 xs ≠ crc16 xs.reverse

/-- crc16(xs ++ ys) continues from crc16(xs). While FAULT = 0, CRCCLR and then one CRCUPD per byte of xs complete with CRC
= crc16(xs) and RESULT that value, all else unchanged: exactly what CHKSUM leaves when xs is the key in memory.
CRCCLR, CHKSUM and KEYSLOT break a chain: what they leave in CRC does not depend on it. (stated: R117) -/
def Obligations.ChecksumChains : Prop :=
  (∀ xs ys : List Byte, crc16 (xs ++ ys) = ys.foldl crcStep (crc16 xs)) ∧
  (∀ (s : State) (xs : List Byte), s.halted = false →
    execAll (.crcclr :: xs.map .crcupd) s =
      .next { s with crc := crc16 xs, result := (crc16 xs).setWidth 32 }) ∧
  (∀ (s : State) (xs : List Byte), s.halted = false → s.HoldsKey xs →
    execAll (.crcclr :: xs.map .crcupd) s = exec .chksum s) ∧
  ∀ (s : State) (c : Half), s.halted = false →
    exec .crcclr { s with crc := c } = exec .crcclr s ∧
    ∀ xs, s.HoldsKey xs →
      exec .chksum { s with crc := c } = exec .chksum s ∧
      exec .keyslot { s with crc := c } = exec .keyslot s

/-- crcStep(0, 0) = 0, so any number of leading zero bytes leaves the checksum as it is. The keys "", [0] and [0, 0] share
checksum 0 and slot 0. crc16("1") = 0x2672 and crc16("1" ++ [0]) = 0x36A4, by the steps shown. (stated: R118) -/
def Obligations.LeadingZerosAreInvisible : Prop :=
  crcStep 0x0000#16 0x00#8 = 0x0000#16 ∧
  (∀ (m : Nat) (ys : List Byte), crc16 (List.replicate m 0x00#8 ++ ys) = crc16 ys) ∧
  crc16 [] = 0x0000#16 ∧ crc16 [0x00#8] = 0x0000#16 ∧ crc16 [0x00#8, 0x00#8] = 0x0000#16 ∧
  slotOf [] = 0 ∧ slotOf [0x00#8] = 0 ∧ slotOf [0x00#8, 0x00#8] = 0 ∧
  crc16 [0x31#8] = 0x2672#16 ∧ crc16 [0x31#8, 0x00#8] = 0x36A4#16 ∧
  crcStep 0x2672#16 0x00#8 = 0x36A4#16 ∧ tableEntry 0x26#8 = 0x44A4#16 ∧
  (0x44A4#16 ^^^ 0x7200#16 : Half) = 0x36A4#16

/-- With no opening brace the whole key is effective; with a first opening brace at s and no closing brace after it, the
whole key; with the first closing brace after s at e, the whole key if e = s + 1 and else the e - s - 1 bytes from s +
1, with TAG = 1. The effective key is the sub-list that offset and length name. (stated: R130) -/
def Obligations.TagExtractFollowsTheRule : Prop :=
  (∀ xs : List Byte, 0x7B#8 ∉ xs → tagExtract xs = ⟨0, xs.length, false⟩) ∧
  (∀ (xs : List Byte) (s : Nat), FirstOpen xs s → (¬ ∃ e, FirstCloseAfter xs s e) →
    tagExtract xs = ⟨0, xs.length, false⟩) ∧
  (∀ (xs : List Byte) (s e : Nat), FirstOpen xs s → FirstCloseAfter xs s e → e = s + 1 →
    tagExtract xs = ⟨0, xs.length, false⟩) ∧
  (∀ (xs : List Byte) (s e : Nat), FirstOpen xs s → FirstCloseAfter xs s e → e ≠ s + 1 →
    tagExtract xs = ⟨s + 1, e - s - 1, true⟩) ∧
  ∀ xs : List Byte, effectiveKey xs = (xs.drop (tagExtract xs).off).take (tagExtract xs).elen

/-- No tag means offset 0 and the whole length. A tag is at least one byte, lies strictly inside the key between an
opening and a closing brace, holds no closing brace, no opening brace comes before its own, and the key has at least
three bytes. No opening brace means no tag. Equal keys give equal results. For p with no opening brace, q non-empty
with no closing brace and any r, the effective key of p, brace, q, brace, r is q. (stated: R132) -/
def Obligations.TagExtractLaws : Prop :=
  (∀ xs : List Byte,
    ((tagExtract xs).tag = false → (tagExtract xs).off = 0 ∧ (tagExtract xs).elen = xs.length) ∧
    ((tagExtract xs).tag = true →
      1 ≤ (tagExtract xs).elen ∧ 1 ≤ (tagExtract xs).off ∧
      (tagExtract xs).off + (tagExtract xs).elen ≤ xs.length - 1 ∧
      xs[(tagExtract xs).off - 1]? = some 0x7B#8 ∧
      xs[(tagExtract xs).off + (tagExtract xs).elen]? = some 0x7D#8 ∧
      0x7D#8 ∉ effectiveKey xs ∧
      (∀ j < (tagExtract xs).off - 1, xs[j]? ≠ some 0x7B#8) ∧
      3 ≤ xs.length) ∧
    (0x7B#8 ∉ xs → (tagExtract xs).tag = false)) ∧
  (∀ xs ys : List Byte, xs = ys → tagExtract xs = tagExtract ys) ∧
  ∀ p q r : List Byte, 0x7B#8 ∉ p → q ≠ [] → 0x7D#8 ∉ q →
    effectiveKey (p ++ [0x7B#8] ++ q ++ [0x7D#8] ++ r) = q

/-- After TAGEXT or KEYSLOT on a key in memory, EKOFF + EKLEN <= n as numbers, and the bytes from ADDR + EKOFF, EKLEN of
them, are the effective key. (derived: 10_state.md section 3) -/
def Obligations.EffectiveKeyLiesInTheKey : Prop :=
  ∀ (i : Instr) (s t : State) (xs : List Byte), i = .tagext ∨ i = .keyslot → s.halted = false →
    s.HoldsKey xs → exec i s = .next t →
    t.ekoff.toNat + t.eklen.toNat ≤ s.keyLen ∧
      (effectiveKey xs).length = t.eklen.toNat ∧
      ∀ k < t.eklen.toNat, s.mem.byte? (s.addr.toNat + t.ekoff.toNat + k) = (effectiveKey xs)[k]?

/-- For every slot count n of at least 1 the slot of a checksum is its remainder by n and below n; for this hardware
NSLOTS = 16384, the slot is bits [13:0] of the checksum and lies in [0, 16383]. (stated: R140) -/
def Obligations.SlotReduceIsTheRemainder : Prop :=
  (∀ (n : Nat) (c : Half), 1 ≤ n → n ≤ 65536 → slotReduce n c = c.toNat % n ∧ slotReduce n c ≤ n - 1) ∧
  Config.nslots = 16384 ∧ nslotsLegal Config.nslots = true ∧
  ∀ c : Half, slotReduce Config.nslots c = (c.extractLsb' 0 14).toNat ∧ slotReduce Config.nslots c ≤ 16383

/-- While FAULT = 0, SLOTRED in every state, and KEYSLOT on every key in memory, complete with RESULT at most NSLOTS - 1 =
16383. (stated: R143) -/
def Obligations.SlotsAreInRange : Prop :=
  Config.nslots - 1 = 16383 ∧
  (∀ s : State, s.halted = false → ∃ t, exec .slotred s = .next t ∧ t.result.toNat ≤ Config.nslots - 1) ∧
  ∀ (s : State) (xs : List Byte), s.halted = false → s.HoldsKey xs →
    ∃ t, exec .keyslot s = .next t ∧ t.result.toNat ≤ Config.nslots - 1

/-- The listed slots hold: "foo{bar}baz", "bar" and "qux{bar}quux" give 5061, "{}" gives 15257, "nobraces" gives 12401;
slot(xs) = crc16(effectiveKey(xs)) mod NSLOTS. For every key in memory, while FAULT = 0, KEYSLOT and the sequence
TAGEXT, ADDR <- ADDR + EKOFF, LEN <- EKLEN, CHKSUM, SLOTRED all complete, with the same RESULT and the same CRC.
(stated: R144) -/
def Obligations.KeyslotIsTagextChksumSlotred : Prop :=
  slotOf [0x66#8, 0x6F#8, 0x6F#8, 0x7B#8, 0x62#8, 0x61#8, 0x72#8, 0x7D#8, 0x62#8, 0x61#8, 0x7A#8] = 5061 ∧ slotOf [0x62#8, 0x61#8, 0x72#8] = 5061 ∧ slotOf [0x71#8, 0x75#8, 0x78#8, 0x7B#8, 0x62#8, 0x61#8, 0x72#8, 0x7D#8, 0x71#8, 0x75#8, 0x75#8, 0x78#8] = 5061 ∧
  slotOf [0x7B#8, 0x7D#8] = 15257 ∧ crc16 [0x7B#8, 0x7D#8] = 0x7B99#16 ∧
  slotOf [0x6E#8, 0x6F#8, 0x62#8, 0x72#8, 0x61#8, 0x63#8, 0x65#8, 0x73#8] = 12401 ∧ crc16 [0x6E#8, 0x6F#8, 0x62#8, 0x72#8, 0x61#8, 0x63#8, 0x65#8, 0x73#8] = 0xF071#16 ∧
  (∀ xs : List Byte, slotOf xs = (crc16 (effectiveKey xs)).toNat % Config.nslots) ∧
  ∀ (s : State) (xs : List Byte), s.halted = false → s.HoldsKey xs →
    ∃ t u v x : State, exec .keyslot s = .next t ∧ exec .tagext s = .next u ∧
      exec .chksum { u with addr := u.addr + u.ekoff, len := u.eklen } = .next v ∧
      exec .slotred v = .next x ∧ x.result = t.result ∧ v.crc = t.crc ∧
      t.result = BitVec.ofNat 32 (slotOf xs)

/-- From a state with FAULT = 0, with the key xs standing in memory at a with length n: the moves WR ADDR a, WR LEN n,
CHKSUM, RD RESULT are performed in four steps with no fault, and the value returned is crc16(xs) zero-extended; with
KEYSLOT in place of CHKSUM it is crc16(effectiveKey(xs)) mod NSLOTS. That the moves stand in the list of moves to come
and the values returned in the list of values read is the model's choice (logs 4, 5). (derived:
70_reset_and_hazards.md section 5, 30_encoding.md section 6) -/
def Obligations.ChecksumIsObserved : Prop :=
  ∀ (s : State) (a n : Word) (xs : List Byte) (es : List Event), s.halted = false →
    ({ s with addr := a, len := n }).HoldsKey xs →
    (s.pending = [.access (.wr 0x04#6 4 a) [], .access (.wr 0x08#6 4 n) [],
        .access (.wr 0x00#6 4 0x04000000#32) [], .access (.rd 0x10#6 4) []] ++ es →
      ∃ t, core.run 4 s = .next t ∧ t.halted = false ∧ t.pending = es ∧
        t.reads = s.reads ++ [(crc16 xs).setWidth 32]) ∧
    (s.pending = [.access (.wr 0x04#6 4 a) [], .access (.wr 0x08#6 4 n) [],
        .access (.wr 0x00#6 4 0x07000000#32) [], .access (.rd 0x10#6 4) []] ++ es →
      ∃ t, core.run 4 s = .next t ∧ t.halted = false ∧ t.pending = es ∧
        t.reads = s.reads ++ [BitVec.ofNat 32 ((crc16 (effectiveKey xs)).toNat % Config.nslots)])

/-- If the invariant holds and a step answers a next state, it holds there: key memory is canonical, the reserved bits of
STATUS are 0, FAULT = 1 exactly when a cause 1 to 4 is recorded with a FINFO it can leave, RESULT is a 16-bit value,
the effective key lies within a legal key, and TAG = 0 means EKOFF = 0 while TAG = 1 means a non-empty key after a
brace. (derived: 10_state.md section 3, 20_memory.md section 1, 42_hashtag.md section 3, 60_exceptions.md section 1) -/
def Obligations.EveryStepKeepsTheInvariant : Prop :=
  ∀ s t : State, s.Inv → step s = .next t → t.Inv

/-- The state after reset meets the invariant that every step keeps. (derived: 10_state.md section 7) -/
def Obligations.InvariantHoldsAtReset : Prop :=
  State.reset.Inv

/-- No step ends in a fault of the interface; a step is refused only when its move is an access during which another agent
writes an address of the region of the command in progress; every other step answers a next state. That no step ends
in a fault of the interface is the model's choice (log 9), and so is that the other agents' writes stand in the access
(log 7) and the moves in the state (log 4). (derived: 20_memory.md section 6, 60_exceptions.md section 2,
60_exceptions.md section 8) -/
def Obligations.EveryMoveIsPerformed : Prop :=
  ∀ s : State, (∃ t, step s = .next t) ∨
    ∃ a during es x, s.pending = .access a during :: es ∧ (s.setPending es).inRegion a x = true ∧
      x ∈ during.map (·.1) ∧ step s = .refused (.regionWritten x)

/-- If a run of moves from the state after reset, none of them RESET, is good, then after every one of its moves FAULT =
0. So a host that finds FAULT = 0 at the end knows that every command on the way took effect. That the moves stand in
the state is the model's choice (log 4). (derived: 70_reset_and_hazards.md section 5, 70_reset_and_hazards.md section
3) -/
def Obligations.GoodRunsNeverFault : Prop :=
  ∀ (es : List Event) (t : State), GoodRun es t → .reset ∉ es →
    ∀ j ≤ es.length, ∃ u, core.run j (State.reset.setPending es) = .next u ∧ u.halted = false

/-- SETKEY a, n is WR ADDR, a and WR LEN, n; CHECKSUM a, n is that and CHKSUM; SLOT a, n is that and KEYSLOT; CRCBYTES is
one CRCUPD per byte, in order; CRCSTR is CRCBYTES over the ASCII codes of its characters, and an empty string expands
to nothing. (stated: R81) -/
def Obligations.PseudoInstructionsExpand : Prop :=
  (∀ a n : Word,
    (Line.setkey a.toNat n.toNat).expand =
      some [.access (.wr 0x04#6 4 a) [], .access (.wr 0x08#6 4 n) []] ∧
    (Line.checksum a.toNat n.toNat).expand =
      some [.access (.wr 0x04#6 4 a) [], .access (.wr 0x08#6 4 n) [], .access (.wr 0x00#6 4 0x04000000#32) []] ∧
    (Line.slot a.toNat n.toNat).expand =
      some [.access (.wr 0x04#6 4 a) [], .access (.wr 0x08#6 4 n) [], .access (.wr 0x00#6 4 0x07000000#32) []]) ∧
  (∀ bs : List Byte, bs ≠ [] → (Line.crcbytes (bs.map BitVec.toNat)).expand =
    some (bs.map fun b => .access (.wr 0x00#6 4 (0x03000000#32 ||| b.setWidth 32)) [])) ∧
  (∀ cs : List Char, (∀ c ∈ cs, c.toNat < 128) → (Line.crcstr cs).expand =
    some (cs.map fun c => .access (.wr 0x00#6 4 (0x03000000#32 ||| BitVec.ofNat 32 c.toNat)) [])) ∧
  (Line.crcstr []).expand = some []

/-- TBLRD and CRCUPD with an operand of 0 to 255 are the CMD writes of 0x01000000 and 0x03000000 with the operand in bits
7..0; an operand of 256 or more is an assembly error. The other commands are the CMD writes of their words. That a WR
or RD of an offset outside the window is an assembly error is the model's choice (log 11). (derived: 30_encoding.md
section 6) -/
def Obligations.CommandLinesEncode : Prop :=
  (∀ b : Byte, (Line.tblrd b.toNat).expand =
      some [.access (.wr 0x00#6 4 (0x01000000#32 ||| b.setWidth 32)) []] ∧
    (Line.crcupd b.toNat).expand = some [.access (.wr 0x00#6 4 (0x03000000#32 ||| b.setWidth 32)) []]) ∧
  (∀ n, 256 ≤ n → (Line.tblrd n).expand = none ∧ (Line.crcupd n).expand = none) ∧
  (∀ n imm, 64 ≤ n → (Line.wr n imm).expand = none ∧ (Line.rd n).expand = none) ∧
  Line.crcclr.expand = some [.access (.wr 0x00#6 4 0x02000000#32) []] ∧
  Line.chksum.expand = some [.access (.wr 0x00#6 4 0x04000000#32) []] ∧
  Line.tagext.expand = some [.access (.wr 0x00#6 4 0x05000000#32) []] ∧
  Line.slotred.expand = some [.access (.wr 0x00#6 4 0x06000000#32) []] ∧
  Line.keyslot.expand = some [.access (.wr 0x00#6 4 0x07000000#32) []] ∧
  Line.reset.expand = some [.reset]

/-- The RESET move leaves key memory, the moves still to come and the values already read as they were: they are not
registers of the core. This is the model's inference (log 15). (derived: 70_reset_and_hazards.md section 1,
20_memory.md section 1) -/
def Obligations.ResetLeavesTheSurroundings : Prop :=
  ∀ s : State, ∃ t, performEvent s .reset = .next t ∧ t.mem = s.mem ∧ t.pending = s.pending ∧ t.reads = s.reads
end

