-- ==== Sys2Proof/Laws/Memory.lean ====
section
/-! SUPPORT. Key memory: every operation keeps the canonical form, a write reads back and leaves every other address alone,
and every choice of the parameters `admitted` and `mem` of 20_memory.md R51 is some memory of this form. -/

namespace Sys2Proof.Machine

theorem mem_insertCell {a : Nat} {b : Byte} {m : Memory} {c : Host.Cell} (h : c ∈ insertCell a b m) :
    c = (a, b) ∨ c ∈ m := by
  induction m with
  | nil => simpa [insertCell] using h
  | cons d m ih =>
    simp only [insertCell] at h
    split at h
    · simpa using h
    · split at h
      · rcases List.mem_cons.mp h with h | h
        · exact .inl h
        · exact .inr (List.mem_cons_of_mem _ h)
      · rcases List.mem_cons.mp h with h | h
        · exact .inr (h ▸ List.mem_cons_self)
        · exact (ih h).imp_right (List.mem_cons_of_mem _)

theorem insertCell_pairwise {a : Nat} {b : Byte} {m : Memory} (h : m.Pairwise (fun c d => c.1 < d.1)) :
    (insertCell a b m).Pairwise (fun c d => c.1 < d.1) := by
  induction m with
  | nil => simp [insertCell]
  | cons d m ih =>
    obtain ⟨hd, hm⟩ := List.pairwise_cons.mp h
    simp only [insertCell]
    split
    · rename_i hlt
      refine List.pairwise_cons.mpr ⟨fun c hc => ?_, h⟩
      rcases List.mem_cons.mp hc with rfl | hc
      · exact hlt
      · exact Nat.lt_trans hlt (hd c hc)
    · split
      · rename_i heq
        exact List.pairwise_cons.mpr ⟨fun c hc => heq ▸ hd c hc, hm⟩
      · refine List.pairwise_cons.mpr ⟨fun c hc => ?_, ih hm⟩
        rcases mem_insertCell hc with rfl | hc
        · show d.1 < a
          omega
        · exact hd c hc

/-- A write keeps the canonical form. -/
theorem Memory.write_wf {m : Memory} (h : m.wf) (a : Word) (b : Byte) : (m.write a b).wf := by
  refine ⟨insertCell_pairwise h.1, fun c hc => ?_⟩
  rcases mem_insertCell hc with rfl | hc
  · exact a.isLt
  · exact h.2 c hc

/-- Another agent's write keeps the canonical form. -/
theorem Memory.store_wf {m : Memory} (h : m.wf) (a : Word) (b : Byte) : (m.store a b).wf := by
  unfold Memory.store
  split
  · exact Memory.write_wf h a b
  · exact h

theorem Memory.storeAll_wf {m : Memory} (h : m.wf) (cells : List (Word × Byte)) : (m.storeAll cells).wf := by
  induction cells generalizing m with
  | nil => exact h
  | cons c cells ih => exact ih (Memory.store_wf h c.1 c.2)

/-- The empty memory is canonical. -/
theorem Memory.nil_wf : Memory.wf [] := ⟨.nil, fun _ h => absurd h List.not_mem_nil⟩

theorem foldl_write_wf {m : Memory} (h : m.wf) (cells : List (Word × Byte)) :
    (cells.foldl (fun m c => Memory.write m c.1 c.2) m).wf := by
  induction cells generalizing m with
  | nil => exact h
  | cons c cells ih => exact ih (Memory.write_wf h c.1 c.2)

/-- A memory the platform gives is canonical, whatever the list of its cells. -/
theorem Memory.ofCells_wf (cells : List (Word × Byte)) : (Memory.ofCells cells).wf :=
  foldl_write_wf Memory.nil_wf cells

theorem lookup_insertCell (a : Nat) (b : Byte) (m : Memory) (x : Nat) :
    (insertCell a b m).lookup x = if x = a then some b else m.lookup x := by
  induction m with
  | nil => by_cases h : x = a <;> simp [insertCell, List.lookup, h, beq_eq_false_iff_ne.mpr]
  | cons d m ih =>
    obtain ⟨da, db⟩ := d
    simp only [insertCell]
    split
    · by_cases h : x = a <;> simp [List.lookup, h, beq_eq_false_iff_ne.mpr]
    · split
      · rename_i h1 h2
        subst h2
        by_cases h : x = a <;> simp [List.lookup, h, beq_eq_false_iff_ne.mpr]
      · rename_i h1 h2
        by_cases h : x = da
        · subst h
          have : x ≠ a := fun e => h2 e.symm
          simp [List.lookup, this]
        · simp [List.lookup, beq_eq_false_iff_ne.mpr h, ih]

/-- What every address reads as after a write. -/
theorem Memory.byte?_write (m : Memory) (a : Word) (b : Byte) (x : Nat) :
    (m.write a b).byte? x = if x = a.toNat then some b else m.byte? x := by
  unfold Memory.byte? Memory.write
  rw [lookup_insertCell]
  by_cases hx : x = a.toNat
  · simp [hx, a.isLt]
  · simp [hx]

/-- What every address reads as after another agent's write: a new byte only at that address, and only if it was admitted. -/
theorem Memory.byte?_store (m : Memory) (a : Word) (b : Byte) (x : Nat) :
    (m.store a b).byte? x = if x = a.toNat ∧ m.admitted a = true then some b else m.byte? x := by
  unfold Memory.store
  by_cases h : m.admitted a = true <;> simp [h, Memory.byte?_write]

/-- What every address reads as after other agents' writes: an admitted one the byte listed last for it, if any is; one that is
not admitted stays so. -/
theorem Memory.byte?_storeAll (cells : List (Word × Byte)) (m : Memory) (x : Nat) :
    (m.storeAll cells).byte? x =
      (m.byte? x).map (((cells.reverse.find? (fun c => c.1.toNat == x)).map (·.2)).getD ·) := by
  induction cells generalizing m with
  | nil => simp [Memory.storeAll]
  | cons c cells ih =>
    rw [show m.storeAll (c :: cells) = (m.store c.1 c.2).storeAll cells from rfl, ih, Memory.byte?_store,
      List.reverse_cons, List.find?_append]
    by_cases hx : x = c.1.toNat
    · subst hx
      cases hm : m.byte? c.1.toNat <;>
        cases cells.reverse.find? (fun d => d.1.toNat == c.1.toNat) <;> simp [Memory.admitted, hm]
    · have hx' : (c.1.toNat == x) = false := beq_eq_false_iff_ne.mpr fun e => hx e.symm
      simp [hx, hx']

/-- Another agent's writes change no address outside those written. -/
theorem Memory.byte?_storeAll_of_not_mem (cells : List (Word × Byte)) (m : Memory) (x : Nat)
    (h : ∀ c ∈ cells, c.1.toNat ≠ x) : (m.storeAll cells).byte? x = m.byte? x := by
  have hf : cells.reverse.find? (fun c => c.1.toNat == x) = none := by simpa [List.find?_eq_none] using h
  simp [Memory.byte?_storeAll, hf]

@[simp] theorem Memory.storeAll_nil (m : Memory) : m.storeAll [] = m := rfl

/-- No byte exists above the address space (20_memory.md R54). -/
theorem Memory.byte?_of_ge (m : Memory) {x : Nat} (h : 2 ^ 32 ≤ x) : m.byte? x = none := by
  simp only [Memory.byte?, ite_eq_right_iff]
  omega

/-! ## Every platform is some memory (20_memory.md R51) -/

/-- The memory that lists the admitted addresses below `n` with their bytes. -/
def Memory.ofParams (admitted : Nat → Bool) (mem : Nat → Byte) (n : Nat) : Memory :=
  (List.range n).filterMap fun a => if admitted a then some (a, mem a) else none

theorem lookup_append_single (m : Memory) (a : Nat) (b : Byte) (x : Nat) (h : ∀ c ∈ m, c.1 ≠ a) :
    (m ++ [(a, b)]).lookup x = if x = a then some b else m.lookup x := by
  induction m with
  | nil => by_cases hx : x = a <;> simp [List.lookup, hx, beq_eq_false_iff_ne.mpr]
  | cons d m ih =>
    obtain ⟨da, db⟩ := d
    have hd : da ≠ a := h _ List.mem_cons_self
    have ih := ih fun c hc => h c (List.mem_cons_of_mem _ hc)
    by_cases hx : x = da
    · subst hx
      simp [List.lookup, hd]
    · simp [List.lookup, beq_eq_false_iff_ne.mpr hx, ih]

theorem Memory.ofParams_succ (admitted : Nat → Bool) (mem : Nat → Byte) (n : Nat) :
    Memory.ofParams admitted mem (n + 1) =
      Memory.ofParams admitted mem n ++ if admitted n then [(n, mem n)] else [] := by
  simp only [Memory.ofParams, List.range_succ, List.filterMap_append]
  by_cases h : admitted n = true <;> simp [h]

theorem Memory.ofParams_lt {admitted : Nat → Bool} {mem : Nat → Byte} {n : Nat} {c : Host.Cell}
    (h : c ∈ Memory.ofParams admitted mem n) : c.1 < n := by
  simp only [Memory.ofParams, List.mem_filterMap, List.mem_range] at h
  obtain ⟨a, ha, he⟩ := h
  split at he
  · cases he; exact ha
  · cases he

theorem Memory.ofParams_lookup (admitted : Nat → Bool) (mem : Nat → Byte) (n x : Nat) :
    (Memory.ofParams admitted mem n).lookup x =
      if x < n ∧ admitted x = true then some (mem x) else none := by
  induction n with
  | zero => simp [Memory.ofParams]
  | succ n ih =>
    rw [Memory.ofParams_succ]
    by_cases h : admitted n = true
    · rw [if_pos h, lookup_append_single _ _ _ _ fun c hc => Nat.ne_of_lt (Memory.ofParams_lt hc), ih]
      by_cases hx : x = n
      · subst hx; simp [h]
      · by_cases hlt : x < n
        · simp [hx, hlt, Nat.lt_succ_of_lt hlt]
        · have : ¬ x < n + 1 := by omega
          simp [hx, hlt, this]
    · rw [if_neg h, List.append_nil, ih]
      by_cases hx : x = n
      · subst hx; simp [h]
      · have : x < n + 1 ↔ x < n := by omega
        simp [this]

/-- Whatever `admitted` and `mem` a platform has, the memory made of them reads exactly so: an address is admitted when
`admitted` says so, and then holds the byte `mem` gives it. -/
theorem Memory.ofParams_byte? (admitted : Nat → Bool) (mem : Nat → Byte) (x : Nat) :
    (Memory.ofParams admitted mem (2 ^ 32)).byte? x =
      if x < 2 ^ 32 ∧ admitted x = true then some (mem x) else none := by
  unfold Memory.byte?
  rw [Memory.ofParams_lookup]
  by_cases h : x < 2 ^ 32
  · rw [if_pos h]
  · rw [if_neg h, if_neg fun e => h e.1]

theorem Memory.ofParams_pairwise (admitted : Nat → Bool) (mem : Nat → Byte) (n : Nat) :
    (Memory.ofParams admitted mem n).Pairwise (fun c d => c.1 < d.1) := by
  induction n with
  | zero => simp [Memory.ofParams]
  | succ n ih =>
    rw [Memory.ofParams_succ]
    refine List.pairwise_append.mpr ⟨ih, ?_, fun c hc d hd => ?_⟩
    · split <;> simp
    · split at hd
      · rw [List.mem_singleton.mp hd]
        exact Memory.ofParams_lt hc
      · cases hd

/-- That memory is in canonical form. -/
theorem Memory.ofParams_wf (admitted : Nat → Bool) (mem : Nat → Byte) :
    (Memory.ofParams admitted mem (2 ^ 32)).wf :=
  ⟨Memory.ofParams_pairwise _ _ _, fun _ hc => Memory.ofParams_lt hc⟩

/-- The memory after reset is canonical. -/
theorem State.reset_mem_wf : State.reset.mem.wf := Memory.nil_wf

end Sys2Proof.Machine
end

