-- ==== Sys2Proof/Laws/Status.lean ====
section
/-! SUPPORT. What each update of STATUS does to each of its fields, bit by bit (10_state.md R30). -/

namespace Sys2Proof.Machine

theorem statusWithFault_getLsbD (w : Word) (c : BitVec 4) (j : Nat) :
    (statusWithFault w c).getLsbD j =
      if j = 0 then true else if 4 ≤ j ∧ j < 8 then c.getLsbD (j - 4) else w.getLsbD j := by
  rcases Nat.lt_or_ge j 32 with h | h
  · interval_cases j <;> simp [statusWithFault]
  · rw [BitVec.getLsbD_of_ge _ _ h, if_neg (by omega), if_neg (by omega), BitVec.getLsbD_of_ge _ _ h]

theorem statusWithTag_getLsbD (w : Word) (t : Bool) (j : Nat) :
    (statusWithTag w t).getLsbD j = if j = 1 then t else w.getLsbD j := by
  rcases Nat.lt_or_ge j 32 with h | h
  · cases t <;> interval_cases j <;> simp [statusWithTag]
  · rw [BitVec.getLsbD_of_ge _ _ h, if_neg (by omega), BitVec.getLsbD_of_ge _ _ h]

theorem statusRead_getLsbD (w : Word) (j : Nat) :
    (statusRead w).getLsbD j = ((j < 2 || (4 ≤ j && j < 8)) && w.getLsbD j) := by
  rcases Nat.lt_or_ge j 32 with h | h
  · interval_cases j <;> simp [statusRead, statusFields]
  · simp [BitVec.getLsbD_of_ge _ _ h]

@[simp] theorem statusFault_withFault (w : Word) (c : BitVec 4) :
    statusFault (statusWithFault w c) = true := by
  simp only [statusFault, statusWithFault_getLsbD]
  rfl

@[simp] theorem statusTag_withFault (w : Word) (c : BitVec 4) :
    statusTag (statusWithFault w c) = statusTag w := by
  simp only [statusTag, statusWithFault_getLsbD]
  rfl

@[simp] theorem statusCause_withFault (w : Word) (c : BitVec 4) :
    statusCause (statusWithFault w c) = c := by
  apply BitVec.eq_of_getLsbD_eq
  intro j hj
  simp only [statusCause, BitVec.getLsbD_extractLsb', statusWithFault_getLsbD]
  simp [hj]
  omega

@[simp] theorem statusFault_withTag (w : Word) (t : Bool) :
    statusFault (statusWithTag w t) = statusFault w := by
  simp only [statusFault, statusWithTag_getLsbD]
  rfl

@[simp] theorem statusTag_withTag (w : Word) (t : Bool) :
    statusTag (statusWithTag w t) = t := by
  simp only [statusTag, statusWithTag_getLsbD]
  rfl

@[simp] theorem statusCause_withTag (w : Word) (t : Bool) :
    statusCause (statusWithTag w t) = statusCause w := by
  apply BitVec.eq_of_getLsbD_eq
  intro j hj
  simp only [statusCause, BitVec.getLsbD_extractLsb', statusWithTag_getLsbD]
  rw [if_neg (by omega)]

/-- Recording a fault leaves the reserved bits as they were. -/
@[simp] theorem statusReserved_withFault (w : Word) (c : BitVec 4) :
    statusWithFault w c &&& ~~~statusFields = w &&& ~~~statusFields := by
  apply BitVec.eq_of_getLsbD_eq
  intro j hj
  simp only [BitVec.getLsbD_and, statusWithFault_getLsbD]
  interval_cases j <;> simp [statusFields]

/-- Writing TAG leaves the reserved bits as they were. -/
@[simp] theorem statusReserved_withTag (w : Word) (t : Bool) :
    statusWithTag w t &&& ~~~statusFields = w &&& ~~~statusFields := by
  apply BitVec.eq_of_getLsbD_eq
  intro j hj
  simp only [BitVec.getLsbD_and, statusWithTag_getLsbD]
  interval_cases j <;> simp [statusFields]

/-- The fields of STATUS are its bits that are read: reading keeps each of them. -/
@[simp] theorem statusFault_read (w : Word) : statusFault (statusRead w) = statusFault w := by
  simp only [statusFault, statusRead_getLsbD]
  rfl

@[simp] theorem statusTag_read (w : Word) : statusTag (statusRead w) = statusTag w := by
  simp only [statusTag, statusRead_getLsbD]
  rfl

@[simp] theorem statusCause_read (w : Word) : statusCause (statusRead w) = statusCause w := by
  apply BitVec.eq_of_getLsbD_eq
  intro j hj
  simp only [statusCause, BitVec.getLsbD_extractLsb', statusRead_getLsbD]
  simp [hj]
  omega

end Sys2Proof.Machine
end

