-- ==== Sys2Proof/Laws/State.lean ====
section
/-! SUPPORT. One lemma per field per named update of the state, true by rfl, so that no proof unfolds a record update; and
what raising a fault and reset leave. -/

namespace Sys2Proof.Machine

/-! ## writeResult -/

@[simp] theorem State.writeResult_crc (s : State) (v : Word) : (s.writeResult v).crc = s.crc := rfl
@[simp] theorem State.writeResult_addr (s : State) (v : Word) : (s.writeResult v).addr = s.addr := rfl
@[simp] theorem State.writeResult_len (s : State) (v : Word) : (s.writeResult v).len = s.len := rfl
@[simp] theorem State.writeResult_result (s : State) (v : Word) : (s.writeResult v).result = v := rfl
@[simp] theorem State.writeResult_ekoff (s : State) (v : Word) : (s.writeResult v).ekoff = s.ekoff := rfl
@[simp] theorem State.writeResult_eklen (s : State) (v : Word) : (s.writeResult v).eklen = s.eklen := rfl
@[simp] theorem State.writeResult_status (s : State) (v : Word) : (s.writeResult v).status = s.status := rfl
@[simp] theorem State.writeResult_finfo (s : State) (v : Word) : (s.writeResult v).finfo = s.finfo := rfl
@[simp] theorem State.writeResult_mem (s : State) (v : Word) : (s.writeResult v).mem = s.mem := rfl
@[simp] theorem State.writeResult_pending (s : State) (v : Word) : (s.writeResult v).pending = s.pending := rfl
@[simp] theorem State.writeResult_reads (s : State) (v : Word) : (s.writeResult v).reads = s.reads := rfl

/-! ## writeChecksum -/

@[simp] theorem State.writeChecksum_crc (s : State) (c : Half) : (s.writeChecksum c).crc = c := rfl
@[simp] theorem State.writeChecksum_addr (s : State) (c : Half) : (s.writeChecksum c).addr = s.addr := rfl
@[simp] theorem State.writeChecksum_len (s : State) (c : Half) : (s.writeChecksum c).len = s.len := rfl
@[simp] theorem State.writeChecksum_result (s : State) (c : Half) : (s.writeChecksum c).result = c.setWidth 32 := rfl
@[simp] theorem State.writeChecksum_ekoff (s : State) (c : Half) : (s.writeChecksum c).ekoff = s.ekoff := rfl
@[simp] theorem State.writeChecksum_eklen (s : State) (c : Half) : (s.writeChecksum c).eklen = s.eklen := rfl
@[simp] theorem State.writeChecksum_status (s : State) (c : Half) : (s.writeChecksum c).status = s.status := rfl
@[simp] theorem State.writeChecksum_finfo (s : State) (c : Half) : (s.writeChecksum c).finfo = s.finfo := rfl
@[simp] theorem State.writeChecksum_mem (s : State) (c : Half) : (s.writeChecksum c).mem = s.mem := rfl
@[simp] theorem State.writeChecksum_pending (s : State) (c : Half) : (s.writeChecksum c).pending = s.pending := rfl
@[simp] theorem State.writeChecksum_reads (s : State) (c : Half) : (s.writeChecksum c).reads = s.reads := rfl

/-! ## writeSpan -/

@[simp] theorem State.writeSpan_crc (s : State) (o l : Nat) (t : Bool) : (s.writeSpan o l t).crc = s.crc := rfl
@[simp] theorem State.writeSpan_addr (s : State) (o l : Nat) (t : Bool) : (s.writeSpan o l t).addr = s.addr := rfl
@[simp] theorem State.writeSpan_len (s : State) (o l : Nat) (t : Bool) : (s.writeSpan o l t).len = s.len := rfl
@[simp] theorem State.writeSpan_result (s : State) (o l : Nat) (t : Bool) : (s.writeSpan o l t).result = s.result := rfl
@[simp] theorem State.writeSpan_ekoff (s : State) (o l : Nat) (t : Bool) : (s.writeSpan o l t).ekoff = BitVec.ofNat 32 o := rfl
@[simp] theorem State.writeSpan_eklen (s : State) (o l : Nat) (t : Bool) : (s.writeSpan o l t).eklen = BitVec.ofNat 32 l := rfl
@[simp] theorem State.writeSpan_status (s : State) (o l : Nat) (t : Bool) : (s.writeSpan o l t).status = statusWithTag s.status t := rfl
@[simp] theorem State.writeSpan_finfo (s : State) (o l : Nat) (t : Bool) : (s.writeSpan o l t).finfo = s.finfo := rfl
@[simp] theorem State.writeSpan_mem (s : State) (o l : Nat) (t : Bool) : (s.writeSpan o l t).mem = s.mem := rfl
@[simp] theorem State.writeSpan_pending (s : State) (o l : Nat) (t : Bool) : (s.writeSpan o l t).pending = s.pending := rfl
@[simp] theorem State.writeSpan_reads (s : State) (o l : Nat) (t : Bool) : (s.writeSpan o l t).reads = s.reads := rfl

/-! ## returnData -/

@[simp] theorem State.returnData_crc (s : State) (v : Word) : (s.returnData v).crc = s.crc := rfl
@[simp] theorem State.returnData_addr (s : State) (v : Word) : (s.returnData v).addr = s.addr := rfl
@[simp] theorem State.returnData_len (s : State) (v : Word) : (s.returnData v).len = s.len := rfl
@[simp] theorem State.returnData_result (s : State) (v : Word) : (s.returnData v).result = s.result := rfl
@[simp] theorem State.returnData_ekoff (s : State) (v : Word) : (s.returnData v).ekoff = s.ekoff := rfl
@[simp] theorem State.returnData_eklen (s : State) (v : Word) : (s.returnData v).eklen = s.eklen := rfl
@[simp] theorem State.returnData_status (s : State) (v : Word) : (s.returnData v).status = s.status := rfl
@[simp] theorem State.returnData_finfo (s : State) (v : Word) : (s.returnData v).finfo = s.finfo := rfl
@[simp] theorem State.returnData_mem (s : State) (v : Word) : (s.returnData v).mem = s.mem := rfl
@[simp] theorem State.returnData_pending (s : State) (v : Word) : (s.returnData v).pending = s.pending := rfl
@[simp] theorem State.returnData_reads (s : State) (v : Word) : (s.returnData v).reads = s.reads ++ [v] := rfl

/-! ## setMem -/

@[simp] theorem State.setMem_crc (s : State) (m : Memory) : (s.setMem m).crc = s.crc := rfl
@[simp] theorem State.setMem_addr (s : State) (m : Memory) : (s.setMem m).addr = s.addr := rfl
@[simp] theorem State.setMem_len (s : State) (m : Memory) : (s.setMem m).len = s.len := rfl
@[simp] theorem State.setMem_result (s : State) (m : Memory) : (s.setMem m).result = s.result := rfl
@[simp] theorem State.setMem_ekoff (s : State) (m : Memory) : (s.setMem m).ekoff = s.ekoff := rfl
@[simp] theorem State.setMem_eklen (s : State) (m : Memory) : (s.setMem m).eklen = s.eklen := rfl
@[simp] theorem State.setMem_status (s : State) (m : Memory) : (s.setMem m).status = s.status := rfl
@[simp] theorem State.setMem_finfo (s : State) (m : Memory) : (s.setMem m).finfo = s.finfo := rfl
@[simp] theorem State.setMem_mem (s : State) (m : Memory) : (s.setMem m).mem = m := rfl
@[simp] theorem State.setMem_pending (s : State) (m : Memory) : (s.setMem m).pending = s.pending := rfl
@[simp] theorem State.setMem_reads (s : State) (m : Memory) : (s.setMem m).reads = s.reads := rfl

/-! ## setPending -/

@[simp] theorem State.setPending_crc (s : State) (es : List Event) : (s.setPending es).crc = s.crc := rfl
@[simp] theorem State.setPending_addr (s : State) (es : List Event) : (s.setPending es).addr = s.addr := rfl
@[simp] theorem State.setPending_len (s : State) (es : List Event) : (s.setPending es).len = s.len := rfl
@[simp] theorem State.setPending_result (s : State) (es : List Event) : (s.setPending es).result = s.result := rfl
@[simp] theorem State.setPending_ekoff (s : State) (es : List Event) : (s.setPending es).ekoff = s.ekoff := rfl
@[simp] theorem State.setPending_eklen (s : State) (es : List Event) : (s.setPending es).eklen = s.eklen := rfl
@[simp] theorem State.setPending_status (s : State) (es : List Event) : (s.setPending es).status = s.status := rfl
@[simp] theorem State.setPending_finfo (s : State) (es : List Event) : (s.setPending es).finfo = s.finfo := rfl
@[simp] theorem State.setPending_mem (s : State) (es : List Event) : (s.setPending es).mem = s.mem := rfl
@[simp] theorem State.setPending_pending (s : State) (es : List Event) : (s.setPending es).pending = es := rfl
@[simp] theorem State.setPending_reads (s : State) (es : List Event) : (s.setPending es).reads = s.reads := rfl

/-! ## Reset -/

@[simp] theorem State.resetCore_crc (s : State) : s.resetCore.crc = 0#16 := rfl
@[simp] theorem State.resetCore_addr (s : State) : s.resetCore.addr = 0#32 := rfl
@[simp] theorem State.resetCore_len (s : State) : s.resetCore.len = 0#32 := rfl
@[simp] theorem State.resetCore_result (s : State) : s.resetCore.result = 0#32 := rfl
@[simp] theorem State.resetCore_ekoff (s : State) : s.resetCore.ekoff = 0#32 := rfl
@[simp] theorem State.resetCore_eklen (s : State) : s.resetCore.eklen = 0#32 := rfl
@[simp] theorem State.resetCore_status (s : State) : s.resetCore.status = 0#32 := rfl
@[simp] theorem State.resetCore_finfo (s : State) : s.resetCore.finfo = 0#32 := rfl
@[simp] theorem State.resetCore_mem (s : State) : s.resetCore.mem = s.mem := rfl
@[simp] theorem State.resetCore_pending (s : State) : s.resetCore.pending = s.pending := rfl
@[simp] theorem State.resetCore_reads (s : State) : s.resetCore.reads = s.reads := rfl

/-! ## Raising a fault -/

@[simp] theorem State.raise_crc (s : State) (c : FaultCause) (v : Word) : (s.raise c v).crc = s.crc := by
  unfold State.raise; split <;> rfl
@[simp] theorem State.raise_addr (s : State) (c : FaultCause) (v : Word) : (s.raise c v).addr = s.addr := by
  unfold State.raise; split <;> rfl
@[simp] theorem State.raise_len (s : State) (c : FaultCause) (v : Word) : (s.raise c v).len = s.len := by
  unfold State.raise; split <;> rfl
@[simp] theorem State.raise_result (s : State) (c : FaultCause) (v : Word) : (s.raise c v).result = s.result := by
  unfold State.raise; split <;> rfl
@[simp] theorem State.raise_ekoff (s : State) (c : FaultCause) (v : Word) : (s.raise c v).ekoff = s.ekoff := by
  unfold State.raise; split <;> rfl
@[simp] theorem State.raise_eklen (s : State) (c : FaultCause) (v : Word) : (s.raise c v).eklen = s.eklen := by
  unfold State.raise; split <;> rfl
@[simp] theorem State.raise_mem (s : State) (c : FaultCause) (v : Word) : (s.raise c v).mem = s.mem := by
  unfold State.raise; split <;> rfl
@[simp] theorem State.raise_pending (s : State) (c : FaultCause) (v : Word) : (s.raise c v).pending = s.pending := by
  unfold State.raise; split <;> rfl
@[simp] theorem State.raise_reads (s : State) (c : FaultCause) (v : Word) : (s.raise c v).reads = s.reads := by
  unfold State.raise; split <;> rfl

/-- A fault while the core is halted records nothing (60_exceptions.md R152). -/
theorem State.raise_of_halted {s : State} (h : s.halted = true) (c : FaultCause) (v : Word) : s.raise c v = s := by
  simp [State.raise, h]

/-- The first fault is recorded (60_exceptions.md R151). -/
theorem State.raise_of_running {s : State} (h : s.halted = false) (c : FaultCause) (v : Word) :
    s.raise c v = { s with status := statusWithFault s.status (causeCode c), finfo := v } := by
  simp [State.raise, h]

/-- After a fault is raised the core is halted, whatever it was before. -/
@[simp] theorem State.raise_halted (s : State) (c : FaultCause) (v : Word) : (s.raise c v).halted = true := by
  unfold State.raise
  split
  · assumption
  · simp [State.halted]

@[simp] theorem State.raise_tag (s : State) (c : FaultCause) (v : Word) :
    statusTag (s.raise c v).status = statusTag s.status := by
  unfold State.raise; split <;> simp

/-! ## Halting depends on STATUS alone -/

@[simp] theorem State.writeResult_halted (s : State) (v : Word) : (s.writeResult v).halted = s.halted := rfl
@[simp] theorem State.writeChecksum_halted (s : State) (c : Half) : (s.writeChecksum c).halted = s.halted := rfl
@[simp] theorem State.writeSpan_halted (s : State) (o l : Nat) (t : Bool) :
    (s.writeSpan o l t).halted = s.halted := by simp [State.halted]
@[simp] theorem State.returnData_halted (s : State) (v : Word) : (s.returnData v).halted = s.halted := rfl
@[simp] theorem State.setMem_halted (s : State) (m : Memory) : (s.setMem m).halted = s.halted := rfl
@[simp] theorem State.setPending_halted (s : State) (es : List Event) : (s.setPending es).halted = s.halted := rfl
@[simp] theorem State.resetCore_halted (s : State) : s.resetCore.halted = false := by
  show statusFault State.reset.status = false
  decide

/-! ## Updates that change nothing -/

@[simp] theorem State.setMem_mem_self (s : State) : s.setMem s.mem = s := rfl
@[simp] theorem State.setPending_pending_self (s : State) : s.setPending s.pending = s := rfl

end Sys2Proof.Machine
end

