-- ==== Sys2Proof/Laws/Operands.lean ====
section
/-! SUPPORT. What the shared operations of the memory commands can do: reading the region, the region check, and the two
things a memory command can come to. Callers cite these and unfold none of the operations. -/

namespace Sys2Proof.Machine

/-- Reading a region answers its bytes exactly when every one of them can be read. -/
theorem readBytes_ok_iff (m : Memory) (base n k : Nat) (xs : List Byte) :
    readBytes m base k n = .ok xs ↔
      xs.length = n ∧ ∀ j (h : j < xs.length), m.byte? (base + (k + j)) = some xs[j] := by
  induction n generalizing k xs with
  | zero =>
    constructor
    · intro h
      cases h
      simp
    · rintro ⟨h, -⟩
      rw [List.length_eq_zero_iff.mp h]
      rfl
  | succ n ih =>
    unfold readBytes
    constructor
    · intro h
      split at h
      · cases h
      · rename_i b hb
        split at h
        · cases h
        · rename_i bs hbs
          cases h
          obtain ⟨hl, hbytes⟩ := (ih (k + 1) bs).mp hbs
          refine ⟨by simp [hl], fun j hj => ?_⟩
          cases j with
          | zero => simpa using hb
          | succ j =>
            have := hbytes j (by simpa using hj)
            rw [show k + (j + 1) = k + 1 + j by omega]
            simpa using this
    · rintro ⟨hl, hbytes⟩
      cases xs with
      | nil => simp at hl
      | cons b bs =>
        have hb : m.byte? (base + k) = some b := hbytes 0 (Nat.succ_pos _)
        have hbs : readBytes m base (k + 1) n = .ok bs := by
          refine (ih (k + 1) bs).mpr ⟨by simpa using hl, fun j hj => ?_⟩
          have := hbytes (j + 1) (by simpa using hj)
          rw [show k + 1 + j = k + (j + 1) by omega]
          simpa using this
        simp [hb, hbs]

/-- Reading a region fails at the least offset whose byte cannot be read. -/
theorem readBytes_error_iff (m : Memory) (base n k e : Nat) :
    readBytes m base k n = .error e ↔
      ∃ j < n, e = k + j ∧ m.byte? (base + (k + j)) = none ∧
        ∀ i < j, (m.byte? (base + (k + i))).isSome = true := by
  induction n generalizing k with
  | zero => simp [readBytes]
  | succ n ih =>
    unfold readBytes
    constructor
    · intro h
      split at h
      · rename_i hb
        cases h
        exact ⟨0, by omega, rfl, hb, fun i hi => absurd hi (Nat.not_lt_zero i)⟩
      · rename_i b hb
        split at h
        · rename_i e' he
          cases h
          obtain ⟨j, hj, rfl, hnone, hsome⟩ := (ih (k + 1)).mp he
          refine ⟨j + 1, by omega, by omega, by rw [show k + (j + 1) = k + 1 + j by omega]; exact hnone, fun i hi => ?_⟩
          cases i with
          | zero => simp [hb]
          | succ i =>
            rw [show k + (i + 1) = k + 1 + i by omega]
            exact hsome i (by omega)
        · cases h
    · rintro ⟨j, hj, rfl, hnone, hsome⟩
      cases j with
      | zero => rw [show k + 0 = k from rfl] at hnone; simp [hnone]
      | succ j =>
        have h0 := hsome 0 (by omega)
        obtain ⟨b, hb⟩ := Option.isSome_iff_exists.mp h0
        rw [show k + 0 = k from rfl] at hb
        have : readBytes m base (k + 1) n = .error (k + (j + 1)) := by
          refine (ih (k + 1)).mpr ⟨j, by omega, by omega, by rw [show k + 1 + j = k + (j + 1) by omega]; exact hnone, fun i hi => ?_⟩
          rw [show k + 1 + i = k + (i + 1) by omega]
          exact hsome (i + 1) (by omega)
        simp [hb, this]

/-- The region check passes exactly when a key stands in memory, and then answers that key (20_memory.md R54, R55). -/
theorem State.readKey_ok_iff (s : State) (xs : List Byte) : s.readKey = .ok xs ↔ s.HoldsKey xs := by
  unfold State.readKey State.HoldsKey
  cases hneg : s.lenNegative with
  | true => simp
  | false =>
    have key := readBytes_ok_iff s.mem s.addr.toNat s.keyLen 0 xs
    simp only [Nat.zero_add] at key
    simp only [Bool.false_eq_true, if_false, true_and, ← key]
    cases readBytes s.mem s.addr.toNat 0 s.keyLen <;> simp

/-- The region check of a state with a negative LEN (20_memory.md R54). -/
theorem State.readKey_of_lenNegative {s : State} (h : s.lenNegative = true) :
    s.readKey = .error (.lenNegative, s.len) := by
  simp [State.readKey, h]

/-- The region check fails at the first gap (20_memory.md R54). -/
theorem State.readKey_of_firstGap {s : State} {k : Nat} (h : s.FirstGap k) :
    s.readKey = .error (.region, BitVec.ofNat 32 k) := by
  obtain ⟨hneg, hlt, hnone, hsome⟩ := h
  have : readBytes s.mem s.addr.toNat 0 s.keyLen = .error k := by
    refine (readBytes_error_iff ..).mpr ⟨k, hlt, (Nat.zero_add k).symm, ?_, fun i hi => ?_⟩
    · rw [Nat.zero_add]; exact hnone
    · rw [Nat.zero_add]; exact hsome i hi
  simp [State.readKey, hneg, this]

/-- Every state is in one of three cases: LEN is negative, the region has a first gap, or a key stands in memory. -/
theorem State.region_cases (s : State) :
    s.lenNegative = true ∨ (∃ k, s.FirstGap k) ∨ ∃ xs, s.HoldsKey xs := by
  cases hneg : s.lenNegative with
  | true => exact .inl rfl
  | false =>
    refine .inr ?_
    cases h : readBytes s.mem s.addr.toNat 0 s.keyLen with
    | error k =>
      obtain ⟨j, hj, rfl, hnone, hsome⟩ := (readBytes_error_iff ..).mp h
      simp only [Nat.zero_add] at hnone hsome ⊢
      exact .inl ⟨j, hneg, hj, hnone, hsome⟩
    | ok xs =>
      obtain ⟨hl, hb⟩ := (readBytes_ok_iff ..).mp h
      simp only [Nat.zero_add] at hb
      exact .inr ⟨xs, hneg, hl, hb⟩

/-- A memory command on a key. -/
theorem State.withKey_of_holdsKey {s : State} {xs : List Byte} (h : s.HoldsKey xs) (f : List Byte → State) :
    s.withKey f = f xs := by
  simp [State.withKey, (s.readKey_ok_iff xs).mpr h]

/-- A memory command with a negative LEN. -/
theorem State.withKey_of_lenNegative {s : State} (h : s.lenNegative = true) (f : List Byte → State) :
    s.withKey f = s.raise .lenNegative s.len := by
  simp [State.withKey, State.readKey_of_lenNegative h]

/-- A memory command on a region with a gap. -/
theorem State.withKey_of_firstGap {s : State} {k : Nat} (h : s.FirstGap k) (f : List Byte → State) :
    s.withKey f = s.raise .region (BitVec.ofNat 32 k) := by
  simp [State.withKey, State.readKey_of_firstGap h]

/-- Everything a memory command can come to: it takes a fault, or it does its work on the key. -/
theorem State.withKey_cases (s : State) (f : List Byte → State) :
    (s.lenNegative = true ∧ s.withKey f = s.raise .lenNegative s.len) ∨
    (∃ k, s.FirstGap k ∧ s.withKey f = s.raise .region (BitVec.ofNat 32 k)) ∨
    ∃ xs, s.HoldsKey xs ∧ s.withKey f = f xs := by
  rcases s.region_cases with h | ⟨k, h⟩ | ⟨xs, h⟩
  · exact .inl ⟨h, State.withKey_of_lenNegative h f⟩
  · exact .inr (.inl ⟨k, h, State.withKey_of_firstGap h f⟩)
  · exact .inr (.inr ⟨xs, h, State.withKey_of_holdsKey h f⟩)

/-- A halted core does nothing (60_exceptions.md R153). -/
theorem State.perform_of_halted {s : State} (h : s.halted = true) (t : State) : s.perform t = .next s := by
  simp [State.perform, h]

/-- A running core performs the command. -/
theorem State.perform_of_running {s : State} (h : s.halted = false) (t : State) : s.perform t = .next t := by
  simp [State.perform, h]

/-- Everything a command can come to: nothing while halted, or its effect. -/
theorem State.perform_cases {s t u : State} (h : s.perform t = .next u) :
    (s.halted = true ∧ u = s) ∨ (s.halted = false ∧ u = t) := by
  cases hh : s.halted with
  | true => rw [State.perform_of_halted hh] at h; cases h; exact .inl ⟨rfl, rfl⟩
  | false => rw [State.perform_of_running hh] at h; cases h; exact .inr ⟨rfl, rfl⟩

/-- Two keys that stand at the same place are one key. -/
theorem State.HoldsKey.unique {s : State} {xs ys : List Byte} (hx : s.HoldsKey xs) (hy : s.HoldsKey ys) : xs = ys := by
  have hx := (s.readKey_ok_iff xs).mpr hx
  rw [(s.readKey_ok_iff ys).mpr hy] at hx
  cases hx
  rfl

/-- A key is shorter than 2^31 bytes (10_state.md R26). -/
theorem State.HoldsKey.length_lt {s : State} {xs : List Byte} (h : s.HoldsKey xs) : xs.length < 2 ^ 31 :=
  h.2.1 ▸ (s.len.extractLsb' 0 31).isLt

end Sys2Proof.Machine
end

