-- ==== Sys2Proof/Laws/Bus.lean ====
section
/-! SUPPORT. Everything an access, a move and a step can do, said once; the lemmas about whole runs go through these. -/

namespace Sys2Proof.Machine

/-- The register of each offset of the map, and no other (10_state.md R23). -/
theorem regAt_eq_some_iff (o : BitVec 6) (r : Reg) : regAt o = some r ↔ o = offsetOf r := by
  revert o r
  intro o r
  constructor
  · revert o
    cases r <;> decide
  · rintro rfl
    cases r <;> rfl

/-- What makes an access legal (10_state.md R23). -/
theorem Access.target_eq_some_iff (a : Access) (r : Reg) :
    a.target = some r ↔ a.size = 4 ∧ a.offset = offsetOf r ∧ a.allowedAt r = true := by
  unfold Access.target
  constructor
  · intro h
    split at h
    · rename_i hc
      obtain ⟨hr, ha⟩ := Option.filter_eq_some_iff.mp h
      exact ⟨hc.1, (regAt_eq_some_iff _ _).mp hr, ha⟩
    · cases h
  · rintro ⟨hs, ho, ha⟩
    have halign : a.offset.extractLsb' 0 2 = 0#2 := by
      rw [ho]
      cases r <;> rfl
    rw [if_pos ⟨hs, halign⟩, (regAt_eq_some_iff _ _).mpr ho]
    exact Option.filter_eq_some_iff.mpr ⟨rfl, ha⟩

/-- Every command completes with a next state (20_memory.md R61). -/
theorem exec_completes (i : Instr) (s : State) : ∃ t, exec i s = .next t := by
  cases i <;> exact ⟨_, rfl⟩

/-- A halted core does nothing on any command (60_exceptions.md R153). -/
theorem exec_of_halted {s : State} (h : s.halted = true) (i : Instr) : exec i s = .next s := by
  cases i <;> exact State.perform_of_halted h _

/-- Everything a CMD write can do (60_exceptions.md R154). -/
theorem issue_cases (s : State) (w : Word) :
    (s.halted = true ∧ issue s w = .next s) ∨
    (s.halted = false ∧ (∃ e, decode w = .error e) ∧ issue s w = .next (s.raise .illegalCmd w)) ∨
    (s.halted = false ∧ ∃ i, decode w = .ok i ∧ issue s w = exec i s) := by
  unfold issue
  cases hh : s.halted with
  | true => simp
  | false =>
    cases hd : decode w with
    | error e => exact .inr (.inl ⟨rfl, ⟨e, rfl⟩, by simp⟩)
    | ok i => exact .inr (.inr ⟨rfl, i, rfl, by simp⟩)

/-- Everything a host access can do. -/
theorem performAccess_cases (s : State) (a : Access) :
    (a.target = none ∧ performAccess s a = .next (s.illegalAccess a)) ∨
    (∃ o r, a = .rd o 4 ∧ o = offsetOf r ∧ r.readable = true ∧
      performAccess s a = .next (s.returnData (s.readReg r))) ∨
    (∃ w, a = .wr 0x00#6 4 w ∧ performAccess s a = issue s w) ∨
    (∃ w, a = .wr 0x04#6 4 w ∧ performAccess s a = .next { s with addr := w }) ∨
    (∃ w, a = .wr 0x08#6 4 w ∧ performAccess s a = .next { s with len := w }) := by
  cases ht : a.target with
  | none => exact .inl ⟨rfl, by simp [performAccess, ht]⟩
  | some r =>
    refine .inr ?_
    obtain ⟨hs, ho, ha⟩ := (a.target_eq_some_iff r).mp ht
    cases a with
    | rd o n =>
      cases hs
      exact .inl ⟨o, r, rfl, ho, ha, by simp [performAccess, ht]⟩
    | wr o n w =>
      cases hs
      simp only [Access.offset] at ho
      subst ho
      refine .inr ?_
      cases r with
      | cmd => exact .inl ⟨w, rfl, by simp [performAccess, ht, writeReg]⟩
      | addr => exact .inr (.inl ⟨w, rfl, by simp [performAccess, ht, writeReg]⟩)
      | len => exact .inr (.inr ⟨w, rfl, by simp [performAccess, ht, writeReg]⟩)
      | crc | result | ekoff | eklen | status | finfo | nslots => simp [Access.allowedAt, Reg.writable] at ha

/-- Every host access completes with a next state. -/
theorem performAccess_completes (s : State) (a : Access) : ∃ t, performAccess s a = .next t := by
  rcases performAccess_cases s a with ⟨-, h⟩ | ⟨o, r, -, -, -, h⟩ | ⟨w, -, h⟩ | ⟨w, -, h⟩ | ⟨w, -, h⟩
  · exact ⟨_, h⟩
  · exact ⟨_, h⟩
  · rcases issue_cases s w with ⟨-, hi⟩ | ⟨-, -, hi⟩ | ⟨-, i, -, hi⟩
    · exact ⟨_, h.trans hi⟩
    · exact ⟨_, h.trans hi⟩
    · obtain ⟨t, ht⟩ := exec_completes i s
      exact ⟨t, (h.trans hi).trans ht⟩
  · exact ⟨_, h⟩
  · exact ⟨_, h⟩

/-- An access during which no other agent writes its command's region (20_memory.md R67) does what it does, and those writes
land beside it. -/
theorem performEvent_access {s t : State} {a : Access} {during : List (Word × Byte)}
    (hd : ∀ c ∈ during, s.inRegion a c.1 = false) (h : performAccess s a = .next t) :
    performEvent s (.access a during) = .next (t.setMem (t.mem.storeAll during)) := by
  have hf : during.find? (fun c => s.inRegion a c.1) = none := by
    simpa [List.find?_eq_none] using hd
  simp [performEvent, hf, h]

/-- Everything a move can do when it answers a next state. -/
theorem performEvent_cases {s t : State} {e : Event} (h : performEvent s e = .next t) :
    (∃ a during u, e = .access a during ∧ (∀ c ∈ during, s.inRegion a c.1 = false) ∧
      performAccess s a = .next u ∧ t = u.setMem (u.mem.storeAll during)) ∨
    (e = .reset ∧ t = s.resetCore) ∨
    ∃ cells, e = .platform cells ∧ t = s.setMem (Memory.ofCells cells) := by
  cases e with
  | access a during =>
    refine .inl ?_
    obtain ⟨u, hu⟩ := performAccess_completes s a
    cases hf : during.find? (fun c => s.inRegion a c.1) with
    | some c => simp [performEvent, hf] at h
    | none =>
      simp only [performEvent, hf, hu, Host.Outcome.next.injEq] at h
      refine ⟨a, during, u, rfl, fun c hc => ?_, hu, h.symm⟩
      simpa using List.find?_eq_none.mp hf c hc
  | reset => cases h; exact .inr (.inl ⟨rfl, rfl⟩)
  | platform cells => cases h; exact .inr (.inr ⟨cells, rfl, rfl⟩)

/-- With no move to come the core does nothing (60_exceptions.md R163). -/
theorem step_of_pending_nil {s : State} (h : s.pending = []) : step s = .next s := by
  simp [step, stepPending, h]

/-- A step performs the next move (20_memory.md R61). -/
theorem step_of_pending_cons {s : State} {e : Event} {es : List Event} (h : s.pending = e :: es) :
    step s = performEvent (s.setPending es) e := by
  simp [step, stepPending, h]

/-- Everything a step can do when it answers a next state. -/
theorem step_cases {s t : State} (h : step s = .next t) :
    (s.pending = [] ∧ t = s) ∨
    ∃ e es, s.pending = e :: es ∧ performEvent (s.setPending es) e = .next t := by
  cases hp : s.pending with
  | nil => rw [step_of_pending_nil hp] at h; cases h; exact .inl ⟨rfl, rfl⟩
  | cons e es => rw [step_of_pending_cons hp] at h; exact .inr ⟨e, es, rfl, h⟩

end Sys2Proof.Machine
end

