-- ==== Sys2Proof/Laws/Exec.lean ====
section
/-! SUPPORT. What a command can do, said once (the inversion of `exec`), and how a run of the machine unrolls. -/

namespace Sys2Proof.Machine

/-- Raising a fault in a state with FAULT = 0 is the state claims call `faulted` (60_exceptions.md R151). -/
theorem State.raise_eq_faulted {s : State} (h : s.halted = false) (c : FaultCause) (v : Word) :
    s.raise c v = s.faulted c v := State.raise_of_running h c v

/-- Every way a command can end: ignored while FAULT = 1, one of the two faults of a memory command, or its own effect. -/
theorem exec_cases {i : Instr} {s t : State} (h : exec i s = .next t) :
    (s.halted = true ∧ t = s) ∨
    (s.halted = false ∧ readsKey i = true ∧ s.lenNegative = true ∧ t = s.faulted .lenNegative s.len) ∨
    (s.halted = false ∧ readsKey i = true ∧ ∃ k, s.FirstGap k ∧ t = s.faulted .region (BitVec.ofNat 32 k)) ∨
    (s.halted = false ∧ (∃ k, i = .tblrd k ∧ t = s.writeResult ((tableEntry k).setWidth 32))) ∨
    (s.halted = false ∧ i = .crcclr ∧ t = s.writeChecksum Config.crcInit) ∨
    (s.halted = false ∧ (∃ b, i = .crcupd b ∧ t = s.writeChecksum (crcStep s.crc b))) ∨
    (s.halted = false ∧ i = .slotred ∧ t = s.writeResult (slotWord s.crc)) ∨
    (s.halted = false ∧ ∃ xs, s.HoldsKey xs ∧
      ((i = .chksum ∧ t = s.writeChecksum (crc16 xs)) ∨
       (i = .tagext ∧ t = (s.writeTagOf xs).writeResult ((BitVec.ofBool (tagExtract xs).tag).setWidth 32)) ∨
       (i = .keyslot ∧ t = ((s.writeTagOf xs).writeChecksum (crc16 (effectiveKey xs))).writeResult
         (slotWord (crc16 (effectiveKey xs)))))) := by
  cases i with
  | tblrd k => rcases State.perform_cases h with h | h; simp [h]; simp [h]
  | crcclr => rcases State.perform_cases h with h | h; simp [h]; simp [h]
  | crcupd b => rcases State.perform_cases h with h | h; simp [h]; simp [h]
  | slotred => rcases State.perform_cases h with h | h; simp [h]; simp [h]
  | chksum =>
    rcases State.perform_cases h with h | ⟨hh, rfl⟩
    · exact .inl h
    rcases s.withKey_cases (fun xs => s.writeChecksum (crc16 xs)) with ⟨hn, e⟩ | ⟨k, hk, e⟩ | ⟨xs, hx, e⟩ <;> rw [e]
    · exact .inr (.inl ⟨hh, rfl, hn, State.raise_eq_faulted hh _ _⟩)
    · exact .inr (.inr (.inl ⟨hh, rfl, k, hk, State.raise_eq_faulted hh _ _⟩))
    · simp [hh]; exact .inr (.inr ⟨xs, hx, rfl⟩)
  | tagext =>
    rcases State.perform_cases h with h | ⟨hh, rfl⟩
    · exact .inl h
    rcases s.withKey_cases (fun xs =>
        (s.writeTagOf xs).writeResult ((BitVec.ofBool (tagExtract xs).tag).setWidth 32)) with ⟨hn, e⟩ | ⟨k, hk, e⟩ | ⟨xs, hx, e⟩ <;> rw [e]
    · exact .inr (.inl ⟨hh, rfl, hn, State.raise_eq_faulted hh _ _⟩)
    · exact .inr (.inr (.inl ⟨hh, rfl, k, hk, State.raise_eq_faulted hh _ _⟩))
    · simp [hh]; exact .inr (.inr ⟨xs, hx, rfl⟩)
  | keyslot =>
    rcases State.perform_cases h with h | ⟨hh, rfl⟩
    · exact .inl h
    rcases s.withKey_cases (fun xs => ((s.writeTagOf xs).writeChecksum (crc16 (effectiveKey xs))).writeResult
         (slotWord (crc16 (effectiveKey xs)))) with ⟨hn, e⟩ | ⟨k, hk, e⟩ | ⟨xs, hx, e⟩ <;> rw [e]
    · exact .inr (.inl ⟨hh, rfl, hn, State.raise_eq_faulted hh _ _⟩)
    · exact .inr (.inr (.inl ⟨hh, rfl, k, hk, State.raise_eq_faulted hh _ _⟩))
    · simp [hh]; exact .inr (.inr ⟨xs, hx, rfl⟩)

/-- A run of one step more begins with a step. -/
theorem run_succ_of_next {s t : State} (k : Nat) (h : step s = .next t) : core.run (k + 1) s = core.run k t := by
  have : core.step s = .next t := h
  simp [Host.Core.run, this]

/-- A run ends where a step is refused. -/
theorem run_succ_of_refused {s : State} {r : Refusal} (k : Nat) (h : step s = .refused r) :
    core.run (k + 1) s = .refused r := by
  have : core.step s = .refused r := h
  simp [Host.Core.run, this]

end Sys2Proof.Machine
end

