-- ==== Sys2Proof/Laws/HashTag.lean ====
section
/-! SUPPORT. What the hash-tag extractor can answer, said once over the first braces of the key. -/

namespace Sys2Proof.Machine

/-- The search for the opening brace finds the first one. -/
theorem findOpen_iff {xs : List Byte} {s : Nat} :
    xs.findIdx? (· == Config.tagOpen) = some s ↔ FirstOpen xs s := by
  rw [List.findIdx?_eq_some_iff_getElem]
  constructor
  · rintro ⟨h, h1, h2⟩
    refine ⟨by rw [List.getElem?_eq_getElem h]; exact congrArg some (beq_iff_eq.mp h1), fun j hj => ?_⟩
    rw [List.getElem?_eq_getElem (by omega)]
    intro e
    exact h2 j hj (beq_iff_eq.mpr (Option.some.inj e))
  · rintro ⟨h1, h2⟩
    obtain ⟨h, h3⟩ := List.getElem?_eq_some_iff.mp h1
    refine ⟨h, beq_iff_eq.mpr h3, fun j hj hc => h2 j hj ?_⟩
    rw [List.getElem?_eq_getElem (by omega)]
    exact congrArg some (beq_iff_eq.mp hc)

/-- The search for the closing brace finds the first one after the opening brace. -/
theorem findClose_iff {xs : List Byte} {s d : Nat} :
    (xs.drop (s+1)).findIdx? (· == Config.tagClose) = some d ↔
      FirstCloseAfter xs s (s + 1 + d) := by
  rw [List.findIdx?_eq_some_iff_getElem]
  constructor
  · rintro ⟨h, h1, h2⟩
    rw [List.length_drop] at h
    refine ⟨by omega, ?_, fun j hj hj' => ?_⟩
    · rw [List.getElem?_eq_getElem (by omega)]
      rw [List.getElem_drop] at h1
      exact congrArg some (beq_iff_eq.mp h1)
    · have := h2 (j - (s+1)) (by omega)
      rw [List.getElem_drop] at this
      rw [List.getElem?_eq_getElem (by omega)]
      intro e
      apply this
      have e := Option.some.inj e
      simp only [show s + 1 + (j - (s + 1)) = j by omega]
      exact beq_iff_eq.mpr e
  · rintro ⟨h0, h1, h2⟩
    obtain ⟨h, h3⟩ := List.getElem?_eq_some_iff.mp h1
    refine ⟨by rw [List.length_drop]; omega, by rw [List.getElem_drop]; exact beq_iff_eq.mpr h3, fun j hj hc => ?_⟩
    rw [List.getElem_drop] at hc
    refine h2 (s + 1 + j) (by omega) (by omega) ?_
    rw [List.getElem?_eq_getElem (by omega)]
    exact congrArg some (beq_iff_eq.mp hc)

/-- The extractor answers the whole key, or the bytes between the first opening brace and the first closing brace after it. -/
theorem tagExtract_cases (xs : List Byte) :
    tagExtract xs = ⟨0, xs.length, false⟩ ∨
    ∃ s e, FirstOpen xs s ∧ FirstCloseAfter xs s e ∧ s + 1 < e ∧ tagExtract xs = ⟨s + 1, e - s - 1, true⟩ := by
  cases ho : xs.findIdx? (· == Config.tagOpen) with
  | none => left; simp [tagExtract, ho, wholeKey]
  | some s =>
    cases hc : (xs.drop (s+1)).findIdx? (· == Config.tagClose) with
    | none => left; simp [tagExtract, ho, hc, wholeKey]
    | some d =>
      cases d with
      | zero => left; simp [tagExtract, ho, hc, wholeKey]
      | succ d =>
        right
        refine ⟨s, s + 1 + (d + 1), findOpen_iff.mp ho, findClose_iff.mp hc, by omega, ?_⟩
        have : s + 1 + (d+1) - s - 1 = d + 1 := by omega
        simp [tagExtract, ho, hc, this]

end Sys2Proof.Machine
end

