-- ==== Sys2Proof/Laws/PerInstr.lean ====
section
/-! SUPPORT. Facts about every command as syntax, one lemma per constructor. -/

namespace Sys2Proof.Laws

/-- The word of a command has RSV = 0 and its command's OPC in [31:24] (30_encoding.md R70, R75). -/
def WordFields.Statement (i : Instr) : Prop :=
  fieldRsv (encode i) = 0#16 ∧ fieldOpc (encode i) = opcOf i

theorem wordFields_of (o imm : Byte) :
    fieldRsv ((o.setWidth 32 <<< 24) ||| imm.setWidth 32) = 0#16 ∧
      fieldOpc ((o.setWidth 32 <<< 24) ||| imm.setWidth 32) = o := by
  constructor
  · apply BitVec.eq_of_getLsbD_eq
    intro j hj
    interval_cases j <;> simp [fieldRsv]
  · apply BitVec.eq_of_getLsbD_eq
    intro j hj
    interval_cases j <;> simp [fieldOpc]

theorem WordFields.tblrd (k : Byte) : WordFields.Statement (.tblrd k) := wordFields_of _ _
theorem WordFields.crcclr : WordFields.Statement .crcclr := wordFields_of _ _
theorem WordFields.crcupd (b : Byte) : WordFields.Statement (.crcupd b) := wordFields_of _ _
theorem WordFields.chksum : WordFields.Statement .chksum := wordFields_of _ _
theorem WordFields.tagext : WordFields.Statement .tagext := wordFields_of _ _
theorem WordFields.slotred : WordFields.Statement .slotred := wordFields_of _ _
theorem WordFields.keyslot : WordFields.Statement .keyslot := wordFields_of _ _

end Sys2Proof.Laws
end

