-- ==== Sys2Proof/Tests/Slice0.lean ====
section
/-! SUPPORT. The model's own tests, each a fact about one operation or one step with its expected value from the vectors of
spec/95_test_vectors.md or the listing of spec/40_table.md; the smoke test of every check of WellFormed.lean; and for every
statement with hypotheses a witness that meets them. -/

namespace Sys2Proof.Tests

open Sys2Proof Sys2Proof.Machine

-- One theorem at a time: each kernel evaluation otherwise takes a thread of its own, with a stack of its own.
set_option Elab.async false

/-- The next state, if there is one. -/
def nextOf : Host.Outcome State Fault Refusal → Option State
  | .next s => some s
  | .fault _ => none
  | .refused _ => none

/-! ## The checks of WellFormed.lean refuse ill-formed terms -/

theorem test_opcUnassigned : opcUnassigned 0x00000000#32 = true ∧ opcUnassigned 0x08000000#32 = true ∧
    opcUnassigned 0xFF000000#32 = true ∧ opcUnassigned 0x07000000#32 = false := by decide

theorem test_rsvNonzero : rsvNonzero 0x01000100#32 = true ∧ rsvNonzero 0x04800000#32 = true ∧
    rsvNonzero 0x010000FF#32 = false := by decide

theorem test_immNotAllowed : immNotAllowed 0x02000001#32 = true ∧ immNotAllowed 0x070000FF#32 = true ∧
    immNotAllowed 0x030000FF#32 = false := by decide

theorem test_wordLegal : wordLegal 0x00000000#32 = false ∧ wordLegal 0x01000100#32 = false ∧
    wordLegal 0x06000001#32 = false ∧ wordLegal 0x01000000#32 = true := by decide

theorem test_nslotsLegal : nslotsLegal 0 = false ∧ nslotsLegal 65537 = false ∧ nslotsLegal 65536 = true ∧
    nslotsLegal Config.nslots = true := by decide

theorem test_operandsLegal : imm8Legal 256 = false ∧ imm8Legal 255 = true ∧ imm32Legal 4294967296 = false ∧
    imm32Legal 4294967295 = true ∧ offsetLegal 64 = false ∧ offsetLegal 63 = true := by decide

/-! ## Decoding: one word per command, written out from 30_encoding.md R70 and R75 -/

theorem test_decode_tblrd : decode 0b00000001000000000000000000010001#32 = .ok (.tblrd 0x11#8) := by decide
theorem test_decode_crcclr : decode 0b00000010000000000000000000000000#32 = .ok .crcclr := by decide
theorem test_decode_crcupd : decode 0b00000011000000000000000011111110#32 = .ok (.crcupd 0xFE#8) := by decide
theorem test_decode_chksum : decode 0b00000100000000000000000000000000#32 = .ok .chksum := by decide
theorem test_decode_tagext : decode 0b00000101000000000000000000000000#32 = .ok .tagext := by decide
theorem test_decode_slotred : decode 0b00000110000000000000000000000000#32 = .ok .slotred := by decide
theorem test_decode_keyslot : decode 0b00000111000000000000000000000000#32 = .ok .keyslot := by decide
theorem test_decode_names_why : decode 0x01000100#32 = .error .rsvNonzero ∧ decode 0x02000001#32 = .error .immNonzero ∧
    decode 0x08000000#32 = .error .opcUnassigned := by decide
theorem test_encode_words : encode (.tblrd 0x01#8) = 0x01000001#32 ∧ encode (.crcupd 0x31#8) = 0x03000031#32 ∧
    encode .keyslot = 0x07000000#32 := by decide
theorem test_decodeTableWord : decodeTableWord 32 0x010000AA = some (.tblrd 0xAA#8) ∧
    decodeTableWord 32 0x02000000 = some .crcclr ∧ decodeTableWord 24 0x02000000 = none ∧
    decodeTableWord 40 0x0102000000 = none := by decide
theorem test_withFetchWord : (nextOf (step (State.reset.withFetchWord 32 0x03000031))).map (·.crc) = some 0x2672#16 := by
  decide +kernel

/-! ## The table: the listing of 40_table.md section 4 -/

theorem test_table_00 : (tableRom.drop 0).take 64 =
    [0x0000#16, 0x1021#16, 0x2042#16, 0x3063#16, 0x4084#16, 0x50A5#16, 0x60C6#16, 0x70E7#16,
     0x8108#16, 0x9129#16, 0xA14A#16, 0xB16B#16, 0xC18C#16, 0xD1AD#16, 0xE1CE#16, 0xF1EF#16,
     0x1231#16, 0x0210#16, 0x3273#16, 0x2252#16, 0x52B5#16, 0x4294#16, 0x72F7#16, 0x62D6#16,
     0x9339#16, 0x8318#16, 0xB37B#16, 0xA35A#16, 0xD3BD#16, 0xC39C#16, 0xF3FF#16, 0xE3DE#16] ++
    [0x2462#16, 0x3443#16, 0x0420#16, 0x1401#16, 0x64E6#16, 0x74C7#16, 0x44A4#16, 0x5485#16,
     0xA56A#16, 0xB54B#16, 0x8528#16, 0x9509#16, 0xE5EE#16, 0xF5CF#16, 0xC5AC#16, 0xD58D#16,
     0x3653#16, 0x2672#16, 0x1611#16, 0x0630#16, 0x76D7#16, 0x66F6#16, 0x5695#16, 0x46B4#16,
     0xB75B#16, 0xA77A#16, 0x9719#16, 0x8738#16, 0xF7DF#16, 0xE7FE#16, 0xD79D#16, 0xC7BC#16] := by decide +kernel

theorem test_table_40 : (tableRom.drop 64).take 64 =
    [0x48C4#16, 0x58E5#16, 0x6886#16, 0x78A7#16, 0x0840#16, 0x1861#16, 0x2802#16, 0x3823#16,
     0xC9CC#16, 0xD9ED#16, 0xE98E#16, 0xF9AF#16, 0x8948#16, 0x9969#16, 0xA90A#16, 0xB92B#16,
     0x5AF5#16, 0x4AD4#16, 0x7AB7#16, 0x6A96#16, 0x1A71#16, 0x0A50#16, 0x3A33#16, 0x2A12#16,
     0xDBFD#16, 0xCBDC#16, 0xFBBF#16, 0xEB9E#16, 0x9B79#16, 0x8B58#16, 0xBB3B#16, 0xAB1A#16] ++
    [0x6CA6#16, 0x7C87#16, 0x4CE4#16, 0x5CC5#16, 0x2C22#16, 0x3C03#16, 0x0C60#16, 0x1C41#16,
     0xEDAE#16, 0xFD8F#16, 0xCDEC#16, 0xDDCD#16, 0xAD2A#16, 0xBD0B#16, 0x8D68#16, 0x9D49#16,
     0x7E97#16, 0x6EB6#16, 0x5ED5#16, 0x4EF4#16, 0x3E13#16, 0x2E32#16, 0x1E51#16, 0x0E70#16,
     0xFF9F#16, 0xEFBE#16, 0xDFDD#16, 0xCFFC#16, 0xBF1B#16, 0xAF3A#16, 0x9F59#16, 0x8F78#16] := by decide +kernel

theorem test_table_80 : (tableRom.drop 128).take 64 =
    [0x9188#16, 0x81A9#16, 0xB1CA#16, 0xA1EB#16, 0xD10C#16, 0xC12D#16, 0xF14E#16, 0xE16F#16,
     0x1080#16, 0x00A1#16, 0x30C2#16, 0x20E3#16, 0x5004#16, 0x4025#16, 0x7046#16, 0x6067#16,
     0x83B9#16, 0x9398#16, 0xA3FB#16, 0xB3DA#16, 0xC33D#16, 0xD31C#16, 0xE37F#16, 0xF35E#16,
     0x02B1#16, 0x1290#16, 0x22F3#16, 0x32D2#16, 0x4235#16, 0x5214#16, 0x6277#16, 0x7256#16] ++
    [0xB5EA#16, 0xA5CB#16, 0x95A8#16, 0x8589#16, 0xF56E#16, 0xE54F#16, 0xD52C#16, 0xC50D#16,
     0x34E2#16, 0x24C3#16, 0x14A0#16, 0x0481#16, 0x7466#16, 0x6447#16, 0x5424#16, 0x4405#16,
     0xA7DB#16, 0xB7FA#16, 0x8799#16, 0x97B8#16, 0xE75F#16, 0xF77E#16, 0xC71D#16, 0xD73C#16,
     0x26D3#16, 0x36F2#16, 0x0691#16, 0x16B0#16, 0x6657#16, 0x7676#16, 0x4615#16, 0x5634#16] := by decide +kernel

theorem test_table_c0 : (tableRom.drop 192).take 64 =
    [0xD94C#16, 0xC96D#16, 0xF90E#16, 0xE92F#16, 0x99C8#16, 0x89E9#16, 0xB98A#16, 0xA9AB#16,
     0x5844#16, 0x4865#16, 0x7806#16, 0x6827#16, 0x18C0#16, 0x08E1#16, 0x3882#16, 0x28A3#16,
     0xCB7D#16, 0xDB5C#16, 0xEB3F#16, 0xFB1E#16, 0x8BF9#16, 0x9BD8#16, 0xABBB#16, 0xBB9A#16,
     0x4A75#16, 0x5A54#16, 0x6A37#16, 0x7A16#16, 0x0AF1#16, 0x1AD0#16, 0x2AB3#16, 0x3A92#16] ++
    [0xFD2E#16, 0xED0F#16, 0xDD6C#16, 0xCD4D#16, 0xBDAA#16, 0xAD8B#16, 0x9DE8#16, 0x8DC9#16,
     0x7C26#16, 0x6C07#16, 0x5C64#16, 0x4C45#16, 0x3CA2#16, 0x2C83#16, 0x1CE0#16, 0x0CC1#16,
     0xEF1F#16, 0xFF3E#16, 0xCF5D#16, 0xDF7C#16, 0xAF9B#16, 0xBFBA#16, 0x8FD9#16, 0x9FF8#16,
     0x6E17#16, 0x7E36#16, 0x4E55#16, 0x5E74#16, 0x2E93#16, 0x3EB2#16, 0x0ED1#16, 0x1EF0#16] := by decide +kernel

/-! ## The units: 95_test_vectors.md sections 2.2 to 2.5 -/

theorem test_crcStep : crcStep 0xFFFF#16 0x00#8 = 0xE1F0#16 ∧ crcStep 0x1234#16 0x56#8 = 0x3C40#16 ∧
    crcStep 0x8000#16 0x00#8 = 0x9188#16 ∧ crcStep 0x31C3#16 0x00#8 = 0xE572#16 := by decide +kernel

theorem test_crc16 : crc16 [0x39#8, 0x38#8, 0x37#8, 0x36#8, 0x35#8, 0x34#8, 0x33#8, 0x32#8, 0x31#8] = 0x9CAD#16 ∧ crc16 [0xFF#8, 0xFF#8] = 0x1D0F#16 ∧
    crc16 [0x68#8, 0x65#8, 0x6C#8, 0x6C#8, 0x6F#8, 0x20#8, 0x77#8, 0x6F#8, 0x72#8, 0x6C#8, 0x64#8] = 0x3BE4#16 := by decide +kernel

theorem test_crcBitwise : crcBitwise [0x31#8, 0x32#8, 0x33#8, 0x34#8, 0x35#8, 0x36#8, 0x37#8, 0x38#8, 0x39#8] = 0x31C3#16 := by decide +kernel

theorem test_tagExtract : tagExtract [0x66#8, 0x6F#8, 0x6F#8, 0x7B#8, 0x62#8, 0x61#8, 0x72#8, 0x7D#8, 0x7D#8] = ⟨4, 3, true⟩ ∧ tagExtract [0x78#8, 0x7B#8, 0x7D#8] = ⟨0, 3, false⟩ ∧
    tagExtract [0x7B#8, 0x75#8, 0x73#8, 0x65#8, 0x72#8, 0x31#8, 0x30#8, 0x30#8, 0x30#8, 0x7D#8, 0x2E#8, 0x66#8, 0x6F#8, 0x6C#8, 0x6C#8, 0x6F#8, 0x77#8, 0x69#8, 0x6E#8, 0x67#8] = ⟨1, 8, true⟩ := by decide +kernel

theorem test_slotOf : slotOf [0x66#8, 0x6F#8, 0x6F#8, 0x7B#8, 0x7B#8, 0x62#8, 0x61#8, 0x72#8, 0x7D#8, 0x7D#8] = 4015 ∧ slotOf [0x66#8, 0x6F#8, 0x6F#8, 0x7D#8, 0x62#8, 0x61#8, 0x72#8, 0x7B#8, 0x7A#8, 0x61#8, 0x70#8, 0x7D#8] = 6469 ∧
    slotOf [0x31#8, 0x32#8, 0x33#8, 0x34#8, 0x35#8, 0x36#8, 0x37#8, 0x38#8, 0x39#8] = 12739 := by decide +kernel

/-! ## States for single steps -/

/-- The state after a first fault (95_test_vectors.md F1). -/
def haltedState : State := { State.reset with status := 0x00000011#32, finfo := 0x02000001#32 }

/-- "foo" at 0x1000 with LEN = 3. -/
def fooState : State :=
  { State.reset with addr := 0x1000#32, len := 3#32, mem := [(0x1000, 0x66#8), (0x1001, 0x6F#8), (0x1002, 0x6F#8)] }

/-- The key of 95_test_vectors.md P3, "foo", brace, "bar", brace, "baz", at 0x2000. -/
def tagState : State :=
  { State.reset with addr := 0x2000#32, len := 11#32, crc := 0x1234#16, mem := [(0x2000, 0x66#8), (0x2001, 0x6F#8), (0x2002, 0x6F#8), (0x2003, 0x7B#8), (0x2004, 0x62#8), (0x2005, 0x61#8), (0x2006, 0x72#8), (0x2007, 0x7D#8), (0x2008, 0x62#8), (0x2009, 0x61#8), (0x200A, 0x7A#8)] }

/-- 95_test_vectors.md F3: the region runs past the admitted addresses at offset 4. -/
def gapState : State :=
  { State.reset with addr := 0x3004#32, len := 8#32, mem := [(0x3000, 0x41#8), (0x3001, 0x42#8), (0x3002, 0x43#8), (0x3003, 0x44#8), (0x3004, 0x45#8), (0x3005, 0x46#8), (0x3006, 0x47#8), (0x3007, 0x48#8)] }

/-- 95_test_vectors.md F2: LEN is negative. -/
def negState : State := { State.reset with len := 0xFFFFFFFF#32 }

/-- 95_test_vectors.md F4: the region runs past the top of the address space. -/
def topState : State :=
  { State.reset with addr := 0xFFFFFFFF#32, len := 2#32, mem := [(0xFFFFFFFF, 0x41#8)] }

/-- The next state of a host access. -/
def afterAccess (s : State) (a : Access) : Option State := nextOf (performAccess s a)

/-! ## One step: 95_test_vectors.md section 2.7 and the first rows of its programs -/

theorem test_tblrd : (nextOf (exec (.tblrd 0xAA#8) State.reset)).map (·.result) = some 0x000014A0#32 := by decide +kernel

theorem test_crcclr : (nextOf (exec .crcclr { State.reset with crc := 0x31C3#16, result := 5#32 })).map
    (fun t => (t.crc, t.result)) = some (0x0000#16, 0x00000000#32) := by decide

theorem test_crcupd : (nextOf (exec (.crcupd 0xFF#8) { State.reset with crc := 0x00FF#16 })).map
    (fun t => (t.crc, t.result)) = some (0xE1F0#16, 0x0000E1F0#32) := by decide +kernel

theorem test_chksum : (nextOf (exec .chksum tagState)).map (fun t => (t.crc, t.result, t.status)) =
    some (0xFD55#16, 0x0000FD55#32, 0x00000000#32) := by decide +kernel

theorem test_tagext : (nextOf (exec .tagext tagState)).map (fun t => (t.ekoff, t.eklen, t.status, t.result, t.crc)) =
    some (4#32, 3#32, 0x00000002#32, 1#32, 0x1234#16) := by decide +kernel

theorem test_slotred : (nextOf (exec .slotred { State.reset with crc := 0xAF96#16 })).map (fun t => (t.result, t.crc)) =
    some (0x00002F96#32, 0xAF96#16) := by decide +kernel

theorem test_keyslot : (nextOf (exec .keyslot tagState)).map (fun t => (t.ekoff, t.eklen, t.status, t.crc, t.result)) =
    some (4#32, 3#32, 0x00000002#32, 0x93C5#16, 0x000013C5#32) := by decide +kernel

theorem test_keyslot_clears_tag : (nextOf (exec .keyslot { fooState with status := 0x00000002#32 })).map
    (fun t => (t.status, t.crc, t.result)) = some (0x00000000#32, 0xAF96#16, 12182#32) := by decide +kernel

theorem test_fault_illegalCmd : (afterAccess State.reset (.wr 0x00#6 4 0x02000001#32)).map (fun t => (t.status, t.finfo)) =
    some (0x00000011#32, 0x02000001#32) := by decide +kernel

theorem test_fault_lenNegative : (afterAccess negState (.wr 0x00#6 4 0x07000000#32)).map (fun t => (t.status, t.finfo)) =
    some (0x00000021#32, 0xFFFFFFFF#32) := by decide +kernel

theorem test_fault_region : (afterAccess gapState (.wr 0x00#6 4 0x04000000#32)).map
    (fun t => (t.status, t.finfo, t.crc, t.result)) = some (0x00000031#32, 4#32, 0x0000#16, 0#32) := by decide +kernel

theorem test_fault_region_top : (afterAccess topState (.wr 0x00#6 4 0x04000000#32)).map (fun t => (t.status, t.finfo)) =
    some (0x00000031#32, 1#32) := by decide +kernel

theorem test_fault_write_readonly : (afterAccess State.reset (.wr 0x0C#6 4 5#32)).map (fun t => (t.status, t.finfo, t.crc)) =
    some (0x00000041#32, 0x0000000C#32, 0x0000#16) := by decide +kernel

theorem test_fault_read_cmd : (afterAccess State.reset (.rd 0x00#6 4)).map (fun t => (t.status, t.finfo, t.reads)) =
    some (0x00000041#32, 0#32, [0#32]) := by decide +kernel

theorem test_fault_misaligned : (afterAccess State.reset (.rd 0x06#6 4)).map (fun t => (t.status, t.finfo, t.reads)) =
    some (0x00000041#32, 6#32, [0#32]) := by decide +kernel

theorem test_fault_size : (afterAccess State.reset (.wr 0x00#6 2 0x02000000#32)).map (fun t => (t.status, t.finfo)) =
    some (0x00000041#32, 0#32) := by decide +kernel

theorem test_first_fault_kept : (afterAccess haltedState (.rd 0x28#6 4)).map (fun t => (t.status, t.finfo)) =
    some (0x00000011#32, 0x02000001#32) := by decide +kernel

theorem test_halted_ignores : afterAccess haltedState (.wr 0x00#6 4 0x02000000#32) = some haltedState := by decide +kernel

theorem test_empty_key : (afterAccess { State.reset with addr := 0xDEADBEEF#32, crc := 7#16 } (.wr 0x00#6 4 0x04000000#32)).map
    (fun t => (t.status, t.result, t.crc)) = some (0#32, 0#32, 0#16) := by decide +kernel

theorem test_priority : (afterAccess { State.reset with len := 0x80000000#32 } (.wr 0x00#6 4 0x04000001#32)).map
    (fun t => (t.status, t.finfo)) = some (0x00000011#32, 0x04000001#32) := by decide +kernel

theorem test_status_read : (afterAccess { State.reset with status := 0xFFFFFFFF#32 } (.rd 0x1C#6 4)).map (·.reads) =
    some [0x000000F3#32] := by decide +kernel

theorem test_reset_event : nextOf (performEvent { tagState with status := 0x31#32, finfo := 4#32, reads := [1#32] } .reset) =
    some { State.reset with mem := tagState.mem, reads := [1#32] } := by decide +kernel

theorem test_region_written : (match performEvent tagState (.access (.wr 0x00#6 4 0x07000000#32) [(0x200A#32, 0#8)]) with
    | .refused r => r == .regionWritten 0x200A#32
    | .next _ => false) = true := by decide +kernel

theorem test_written_beside : (nextOf (performEvent gapState (.access (.wr 0x00#6 4 0x01000001#32) [(0x3000#32, 0#8)]))).map
    (fun t => (t.result, t.mem.byte? 0x3000)) = some (0x1021#32, some 0#8) := by decide +kernel

theorem test_platform : (nextOf (performEvent State.reset (.platform [(5#32, 1#8), (3#32, 2#8), (5#32, 9#8)]))).map (·.mem) =
    some [(3, 2#8), (5, 9#8)] := by decide +kernel

/-! ## Assembler text: 30_encoding.md R79 to R81 -/

theorem test_asm_tblrd : assembleLine ['t', 'b', 'l', 'R', 'D', ' ', ' ', '0', 'x', '3', '1'] = some [.access (.wr 0x00#6 4 0x01000031#32) []] := by decide +kernel

theorem test_asm_crcupd : assembleLine ['C', 'R', 'C', 'U', 'P', 'D', ' ', Char.ofNat 0x27, '1', Char.ofNat 0x27] = some [.access (.wr 0x00#6 4 0x03000031#32) []] ∧
    assembleLine ['C', 'R', 'C', 'U', 'P', 'D', ' ', '2', '5', '6'] = none := by decide +kernel

theorem test_asm_wr : assembleLine ['W', 'R', ' ', 'L', 'E', 'N', ',', ' ', '9'] = some [.access (.wr 0x08#6 4 9#32) []] ∧
    assembleLine ['R', 'D', ' ', '@', '0', 'x', '0', '6'] = some [.access (.rd 0x06#6 4) []] ∧ assembleLine ['r', 'e', 's', 'e', 't'] = some [.reset] := by
  decide +kernel

theorem test_asm_slot : assembleLine ['S', 'L', 'O', 'T', ' ', '0', 'x', '2', '0', '0', '0', ',', ' ', '1', '1'] =
    some [.access (.wr 0x04#6 4 0x2000#32) [], .access (.wr 0x08#6 4 11#32) [],
      .access (.wr 0x00#6 4 0x07000000#32) []] := by decide +kernel

theorem test_asm_crcbytes : assembleLine ['C', 'R', 'C', 'B', 'Y', 'T', 'E', 'S', ' ', '0', 'x', '3', '1', ',', ' ', Char.ofNat 0x27, '2', Char.ofNat 0x27] =
    some [.access (.wr 0x00#6 4 0x03000031#32) [], .access (.wr 0x00#6 4 0x03000032#32) []] ∧
    assembleLine ['C', 'R', 'C', 'S', 'T', 'R', ' ', Char.ofNat 0x22, '1', '2', Char.ofNat 0x22] = assembleLine ['C', 'R', 'C', 'B', 'Y', 'T', 'E', 'S', ' ', '0', 'x', '3', '1', ',', ' ', Char.ofNat 0x27, '2', Char.ofNat 0x27] ∧
    assembleLine ['C', 'R', 'C', 'S', 'T', 'R', ' ', Char.ofNat 0x22, Char.ofNat 0x22] = some [] := by decide +kernel

/-! ## Witnesses: states and operands that meet the hypotheses of the statements -/

theorem foo_holds : fooState.HoldsKey [0x66#8, 0x6F#8, 0x6F#8] := (fooState.readKey_ok_iff _).mp (by decide +kernel)

theorem tag_holds : tagState.HoldsKey [0x66#8, 0x6F#8, 0x6F#8, 0x7B#8, 0x62#8, 0x61#8, 0x72#8, 0x7D#8, 0x62#8, 0x61#8, 0x7A#8] := (tagState.readKey_ok_iff _).mp (by decide +kernel)

theorem empty_holds : State.reset.HoldsKey [] := (State.reset.readKey_ok_iff _).mp (by decide +kernel)

theorem gap_first : gapState.FirstGap 4 := by
  refine ⟨?_, ?_, ?_, ?_⟩ <;> decide +kernel

theorem top_first : topState.FirstGap 1 := by
  refine ⟨?_, ?_, ?_, ?_⟩ <;> decide +kernel

theorem witness_DecodeAndEncodeAgree : decode 0x010000FF#32 = .ok (.tblrd 0xFF#8) := by decide

theorem witness_DecodeFollowsTheOpcodeMap :
    selectsRow 0x010000FF#32 (0x01000000#32, 0xFFFFFF00#32) ∧ selectsRow 0x02000000#32 (0x02000000#32, 0xFFFFFFFF#32) ∧
    selectsRow 0x03000000#32 (0x03000000#32, 0xFFFFFF00#32) ∧ selectsRow 0x04000000#32 (0x04000000#32, 0xFFFFFFFF#32) ∧
    selectsRow 0x05000000#32 (0x05000000#32, 0xFFFFFFFF#32) ∧ selectsRow 0x06000000#32 (0x06000000#32, 0xFFFFFFFF#32) ∧
    selectsRow 0x07000000#32 (0x07000000#32, 0xFFFFFFFF#32) ∧
    (∀ row ∈ opcodeRows, ¬ selectsRow 0x07000001#32 row) ∧ State.reset.halted = false := by
  refine ⟨by unfold selectsRow; decide, by unfold selectsRow; decide, by unfold selectsRow; decide, by unfold selectsRow; decide,
    by unfold selectsRow; decide, by unfold selectsRow; decide, by unfold selectsRow; decide, ?_, by decide⟩
  simp [opcodeRows, selectsRow]

theorem witness_IllegalWordsAreThoseListed : (∃ e, decode 0x00FFFFFF#32 = .error e) ∧ (∃ e, decode 0x08000000#32 = .error e) ∧
    (∃ e, decode 0x01800000#32 = .error e) ∧ ∃ e, decode 0x070000FF#32 = .error e :=
  ⟨⟨_, rfl⟩, ⟨_, rfl⟩, ⟨_, rfl⟩, ⟨_, rfl⟩⟩

/-- Two moves: a memory command with a write just above its region, and nothing after it. -/
def cmdState : State :=
  { fooState with pending := [.access (.wr 0x00#6 4 0x04000000#32) [(0x1003#32, 1#8), (0x0FFF#32, 1#8)]] }

theorem cmdState_addr : cmdState.addr.toNat = 0x1000 := by decide +kernel

theorem cmdState_keyLen : cmdState.keyLen = 3 := by decide +kernel

theorem witness_StepRunsTheDecodedCommand :
    cmdState.pending = .access (.wr 0x00#6 4 0x04000000#32) [(0x1003#32, 1#8), (0x0FFF#32, 1#8)] :: [] ∧
    cmdState.halted = false ∧ decode 0x04000000#32 = .ok .chksum ∧
    (∀ c ∈ [((0x1003#32 : Word), (1#8 : Byte)), (0x0FFF#32, 1#8)],
      c.1.toNat < cmdState.addr.toNat ∨ cmdState.addr.toNat + cmdState.keyLen ≤ c.1.toNat) ∧
    ∃ t, exec .chksum (cmdState.setPending []) = .next t := by
  refine ⟨rfl, by decide, by decide, ?_, exec_completes _ _⟩
  rw [cmdState_addr, cmdState_keyLen]
  simp

/-- The first clause: a command during which no other agent writes, and a move after it. -/
theorem witness_StepRunsTheDecodedCommand_alone :
    (fooState.setPending [cmdWrite 0x04000000#32, .reset]).pending = .access (.wr 0x00#6 4 0x04000000#32) [] :: [.reset] ∧
    (fooState.setPending [cmdWrite 0x04000000#32, .reset]).halted = false ∧ decode 0x04000000#32 = .ok .chksum :=
  ⟨rfl, by decide, by decide⟩

theorem witness_IdleStepChangesNothing : State.reset.pending = [] := rfl

theorem witness_RegisterAccessFollowsTheMap : (Access.rd 0x24#6 4).target = some .nslots ∧
    (Access.rd 0x00#6 4).target = none ∧ (Access.rd 0x04#6 8).target = none ∧ (Access.wr 0x0C#6 4 0#32).target = none := by decide

theorem witness_UnmappedOffsetsAreIllegal : 0x28#6 ≤ 0x28#6 ∧ 0x28#6 ≤ 0x3F#6 ∧ State.reset.halted = false := by decide

theorem witness_LengthIsTwosComplement : negState.lenNegative = true ∧ fooState.lenNegative = false := by decide

/-- A legal write of ADDR and a legal write of LEN, each performed. -/
theorem witness_AddrAndLenAreTheHosts :
    nextOf (performEvent State.reset (.access (.wr 0x04#6 4 1#32) [])) = some { State.reset with addr := 1#32 } ∧
    nextOf (performEvent State.reset (.access (.wr 0x08#6 4 1#32) [])) = some { State.reset with len := 1#32 } := by
  decide +kernel

theorem witness_ResultsAreTheCommands : (∃ t, performEvent fooState (.access (.rd 0x0C#6 4) []) = .next t) ∧
    Event.access (.rd 0x0C#6 4) [] ≠ .reset ∧
    ¬ ∃ w d i, Event.access (.rd 0x0C#6 4) [] = .access (.wr 0x00#6 4 w) d ∧ fooState.halted = false ∧ decode w = .ok i := by
  refine ⟨⟨_, rfl⟩, by decide, ?_⟩
  rintro ⟨w, d, i, h, -, -⟩
  cases h

theorem witness_FaultRegistersAreTheFaultMechanisms : ∃ t, performEvent negState (.access (.wr 0x00#6 4 0x04000000#32) []) = .next t :=
  ⟨_, rfl⟩

theorem witness_NoCommandWritesKeyMemory : (∃ t, exec .keyslot tagState = .next t) ∧
    (∃ t, performEvent tagState (.access (.wr 0x00#6 4 0x07000000#32) [(0x3000#32, 1#8)]) = .next t) ∧
    ∃ t, performEvent tagState .reset = .next t :=
  ⟨⟨_, rfl⟩, ⟨_, rfl⟩, ⟨_, rfl⟩⟩

theorem witness_RegionCheckComesFirst : negState.lenNegative = true ∧ gapState.FirstGap 4 ∧ topState.FirstGap 1 ∧
    (State.reset.lenNegative = false ∧ State.reset.keyLen = 0) ∧
    (∀ k < fooState.keyLen, (fooState.mem.byte? (fooState.addr.toNat + k)).isSome = true) ∧
    2 ^ 32 < topState.addr.toNat + topState.keyLen ∧ topState.lenNegative = false ∧ readsKey .tagext = true ∧
    gapState.halted = false ∧ negState.halted = false :=
  ⟨by decide, gap_first, top_first, by decide, by decide +kernel, by decide, by decide, rfl, by decide, by decide⟩

theorem witness_OnlyTheRegionMatters : fooState.SameRegion ((0, 9#8) :: fooState.mem) ∧
    fooState.mem ≠ (0, 9#8) :: fooState.mem ∧ ∃ t, exec .chksum fooState = .next t := by
  refine ⟨?_, by decide, _, rfl⟩
  unfold State.SameRegion
  decide +kernel

theorem witness_RegionMustStayUnwritten : fooState.inRegion (.wr 0x00#6 4 0x04000000#32) 0x1000#32 = true ∧
    fooState.inRegion (.wr 0x00#6 4 0x04000000#32) 0x1002#32 = true ∧
    fooState.inRegion (.wr 0x00#6 4 0x04000000#32) 0x1003#32 = false ∧
    fooState.inRegion (.wr 0x00#6 4 0x04000000#32) 0x0FFF#32 = false ∧
    fooState.inRegion (.wr 0x00#6 4 0x06000000#32) 0x1000#32 = false := by decide

/-- During a TBLRD another agent writes an admitted address twice and one that is not admitted. -/
def besideWrites : List (Word × Byte) := [(0x3000#32, 0#8), (0x3000#32, 9#8), (0x3008#32, 7#8)]

theorem witness_RegionMustStayUnwritten_writes :
    (∀ c ∈ besideWrites, gapState.inRegion (.wr 0x00#6 4 0x01000001#32) c.1 = false) ∧
    gapState.mem.byte? 0x3000 = some 0x41#8 ∧ gapState.mem.byte? 0x3001 = some 0x42#8 ∧ gapState.mem.byte? 0x3008 = none ∧
    (nextOf (performEvent gapState (.access (.wr 0x00#6 4 0x01000001#32) besideWrites))).map
      (fun t => (t.mem.byte? 0x3000, t.mem.byte? 0x3001, t.mem.byte? 0x3008)) = some (some 9#8, some 0x42#8, none) := by
  refine ⟨?_, ?_, ?_, ?_, ?_⟩
  · intro c _
    have h : gapState.issuesMemoryCommand (.wr 0x00#6 4 0x01000001#32) = false := by decide
    simp [State.inRegion, h]
  all_goals decide +kernel

theorem witness_RaiseRecordsTheFirstFault : haltedState.halted = true ∧ negState.halted = false ∧
    (nextOf (exec .tagext negState)).map (·.halted) = some true := by decide +kernel

theorem witness_FaultsAreThoseOfTheTable : gapState.halted = false ∧
    (afterAccess gapState (.wr 0x00#6 4 0x05000000#32)).map (·.halted) = some true ∧
    (afterAccess gapState (.wr 0x0C#6 4 0x05000000#32)).map (·.halted) = some true ∧
    (afterAccess gapState (.wr 0x00#6 4 0x00000000#32)).map (·.halted) = some true ∧
    (afterAccess negState (.wr 0x00#6 4 0x05000000#32)).map (·.halted) = some true ∧
    (afterAccess gapState (.wr 0x00#6 4 0x06000000#32)).map (·.halted) = some false ∧
    (Access.rd 0x00#6 4).target = none ∧ readsKey .crcclr = false := by decide +kernel

theorem witness_FirstFaultIsKept : haltedState.halted = true ∧ Event.access (.wr 0x04#6 4 1#32) [] ≠ .reset ∧
    (∃ t, performEvent haltedState (.access (.wr 0x04#6 4 1#32) []) = .next t) ∧
    (Access.wr 0x28#6 4 0#32).target = none ∧ (Access.rd 0x3C#6 4).target = none :=
  ⟨by decide, by decide, ⟨_, rfl⟩, by decide, by decide⟩

theorem witness_HaltedCoreIgnoresCommands : haltedState.halted = true ∧ Reg.status ≠ .cmd ∧
    (nextOf (performEvent haltedState .reset)).map (·.halted) = some false := by decide

theorem witness_HaltLastsUntilReset :
    haltedState.halted = true ∧
    Event.reset ∉ ({ haltedState with pending := [.access (.rd 0x1C#6 4) [], .reset] } : State).pending.take 1 ∧
    ∃ t, core.run 1 { haltedState with pending := [.access (.rd 0x1C#6 4) [], .reset] } = .next t :=
  ⟨by decide, by decide, ⟨_, rfl⟩⟩

theorem witness_FaultPriority : (Access.wr 0x00#6 2 0x02000000#32).target = none ∧ (Access.rd 0x28#6 4).target = none ∧
    haltedState.halted = true ∧ negState.halted = false ∧ (∃ e, decode 0x04000001#32 = .error e) ∧
    decode 0x04000000#32 = .ok .chksum ∧ readsKey .chksum = true ∧ negState.lenNegative = true ∧ gapState.FirstGap 4 :=
  ⟨by decide, by decide, by decide, by decide, ⟨_, rfl⟩, by decide, rfl, by decide, gap_first⟩

theorem witness_ResetClearsEveryRegister : haltedState.halted = true ∧
    nextOf (performEvent haltedState .reset) = some State.reset ∧ State.reset.halted = false := by decide

theorem witness_TblrdReadsTheTable : State.reset.halted = false ∧ (0x010000FF#32 : Word).extractLsb' 24 8 = 0x01#8 ∧
    (0x010000FF#32 : Word).extractLsb' 8 16 = 0#16 ∧ (0x01800000#32 : Word).extractLsb' 24 8 = 0x01#8 ∧
    (0x01800000#32 : Word).extractLsb' 8 16 ≠ 0#16 := by decide

theorem witness_CrcclrClearsTheRegister : State.reset.halted = false ∧ (0x02000001#32 : Word).extractLsb' 24 8 = 0x02#8 ∧
    (0x02000001#32 : Word) ≠ 0x02000000#32 := by decide

theorem witness_CrcupdFoldsOneByte : State.reset.halted = false ∧ (0x03000000#32 : Word).extractLsb' 24 8 = 0x03#8 ∧
    (0x03000000#32 : Word).extractLsb' 8 16 = 0#16 ∧ (0x03000100#32 : Word).extractLsb' 8 16 ≠ 0#16 := by decide

theorem witness_ChksumOfTheKey : fooState.halted = false ∧ fooState.HoldsKey [0x66#8, 0x6F#8, 0x6F#8] ∧ negState.lenNegative = true ∧
    gapState.FirstGap 4 ∧ State.reset.len = 0#32 ∧ fooState.lenNegative = false ∧
    (∀ k < fooState.keyLen, (fooState.mem.byte? (fooState.addr.toNat + k)).isSome = true) ∧
    topState.addr = 0xFFFFFFFF#32 ∧ topState.len = 2#32 ∧ topState.mem.admitted 0xFFFFFFFF#32 = true ∧
    (0x040000FF#32 : Word).extractLsb' 24 8 = 0x04#8 :=
  ⟨by decide, foo_holds, by decide, gap_first, rfl, by decide, by decide +kernel, rfl, rfl, by decide, by decide⟩

theorem witness_TagextFindsTheEffectiveKey : tagState.halted = false ∧ tagState.HoldsKey [0x66#8, 0x6F#8, 0x6F#8, 0x7B#8, 0x62#8, 0x61#8, 0x72#8, 0x7D#8, 0x62#8, 0x61#8, 0x7A#8] ∧
    negState.lenNegative = true ∧ gapState.FirstGap 4 ∧ (0x05000100#32 : Word).extractLsb' 24 8 = 0x05#8 :=
  ⟨by decide, tag_holds, by decide, gap_first, by decide⟩

theorem witness_SlotredReducesTheRegister : State.reset.halted = false ∧ (0x06000001#32 : Word).extractLsb' 24 8 = 0x06#8 := by
  decide

theorem witness_KeyslotOfTheKey : tagState.halted = false ∧ tagState.HoldsKey [0x66#8, 0x6F#8, 0x6F#8, 0x7B#8, 0x62#8, 0x61#8, 0x72#8, 0x7D#8, 0x62#8, 0x61#8, 0x7A#8] ∧
    negState.lenNegative = true ∧ gapState.FirstGap 4 ∧ State.reset.len = 0#32 ∧
    (0x07000001#32 : Word).extractLsb' 24 8 = 0x07#8 :=
  ⟨by decide, tag_holds, by decide, gap_first, rfl, by decide⟩

theorem witness_CommandsWriteOnlyTheirRegisters : (∃ t, exec .keyslot tagState = .next t) ∧ (∃ t, exec .chksum gapState = .next t) ∧
    ∃ t, exec .tagext haltedState = .next t := ⟨⟨_, rfl⟩, ⟨_, rfl⟩, ⟨_, rfl⟩⟩

theorem witness_EveryCommandLeavesASixteenBitResult : tagState.halted = false ∧
    (nextOf (exec .keyslot tagState)).map (·.halted) = some false := by decide +kernel

theorem witness_TagExtractFollowsTheRule : FirstOpen [0x61#8, 0x7B#8, 0x62#8, 0x7D#8] 1 ∧ FirstCloseAfter [0x61#8, 0x7B#8, 0x62#8, 0x7D#8] 1 3 ∧
    FirstOpen [0x7B#8, 0x7D#8] 0 ∧ FirstCloseAfter [0x7B#8, 0x7D#8] 0 1 ∧ FirstOpen [0x7B#8] 0 ∧
    (¬ ∃ e, FirstCloseAfter [0x7B#8] 0 e) ∧ 0x7B#8 ∉ [0x62#8, 0x61#8, 0x72#8, 0x7D#8] := by
  refine ⟨⟨by decide, by decide⟩, ⟨by decide, by decide, ?_⟩, ⟨by decide, by decide⟩, ⟨by decide, by decide, ?_⟩,
    ⟨by decide, by decide⟩, ?_, by decide⟩
  · intro j h1 h2
    interval_cases j
    decide
  · intro j h1 h2
    omega
  · rintro ⟨e, h1, h2, -⟩
    obtain ⟨h, -⟩ := List.getElem?_eq_some_iff.mp h2
    simp at h
    omega

theorem witness_TagExtractLaws : (tagExtract [0x7B#8, 0x61#8, 0x7D#8]).tag = true ∧ (tagExtract [0x7B#8, 0x7D#8]).tag = false ∧
    0x7B#8 ∉ [0x7D#8] ∧ [0x61#8] ≠ [] ∧ 0x7D#8 ∉ [0x7B#8, 0x61#8] := by decide

theorem witness_EffectiveKeyLiesInTheKey : tagState.halted = false ∧ tagState.HoldsKey [0x66#8, 0x6F#8, 0x6F#8, 0x7B#8, 0x62#8, 0x61#8, 0x72#8, 0x7D#8, 0x62#8, 0x61#8, 0x7A#8] ∧
    ∃ t, exec .tagext tagState = .next t := ⟨by decide, tag_holds, _, rfl⟩

theorem witness_SlotReduceIsTheRemainder : 1 ≤ Config.nslots ∧ Config.nslots ≤ 65536 := by decide

theorem witness_ChecksumChains : State.reset.halted = false ∧ State.reset.HoldsKey [] ∧ tagState.halted = false ∧
    tagState.HoldsKey [0x66#8, 0x6F#8, 0x6F#8, 0x7B#8, 0x62#8, 0x61#8, 0x72#8, 0x7D#8, 0x62#8, 0x61#8, 0x7A#8] := ⟨by decide, empty_holds, by decide, tag_holds⟩

theorem witness_SlotsAreInRange : State.reset.halted = false ∧ State.reset.HoldsKey [] ∧ tagState.halted = false ∧
    tagState.HoldsKey [0x66#8, 0x6F#8, 0x6F#8, 0x7B#8, 0x62#8, 0x61#8, 0x72#8, 0x7D#8, 0x62#8, 0x61#8, 0x7A#8] := ⟨by decide, empty_holds, by decide, tag_holds⟩

theorem witness_KeyslotIsTagextChksumSlotred : State.reset.halted = false ∧ State.reset.HoldsKey [] ∧ tagState.halted = false ∧
    tagState.HoldsKey [0x66#8, 0x6F#8, 0x6F#8, 0x7B#8, 0x62#8, 0x61#8, 0x72#8, 0x7D#8, 0x62#8, 0x61#8, 0x7A#8] := ⟨by decide, empty_holds, by decide, tag_holds⟩

theorem witness_NslotsReadsAsTheConstant : ∃ t, exec .slotred State.reset = .next t := exec_completes _ _

theorem witness_ChecksumProperties : ([0x61#8] : List Byte) = [0x61#8] := rfl

/-- The four moves of CHECKSUM and the read, to be made on the key "foo". -/
def observeState : State :=
  { fooState with
    addr := 0#32, len := 0#32
    pending := [.access (.wr 0x04#6 4 0x1000#32) [], .access (.wr 0x08#6 4 3#32) [],
      .access (.wr 0x00#6 4 0x04000000#32) [], .access (.rd 0x10#6 4) []] ++ [] }

/-- The same moves with KEYSLOT. -/
def observeSlotState : State :=
  { fooState with
    addr := 0#32, len := 0#32
    pending := [.access (.wr 0x04#6 4 0x1000#32) [], .access (.wr 0x08#6 4 3#32) [],
      .access (.wr 0x00#6 4 0x07000000#32) [], .access (.rd 0x10#6 4) []] ++ [] }

theorem witness_ChecksumIsObserved_slot : observeSlotState.halted = false ∧
    ({ observeSlotState with addr := 0x1000#32, len := 3#32 } : State).HoldsKey [0x66#8, 0x6F#8, 0x6F#8] ∧
    observeSlotState.pending = [.access (.wr 0x04#6 4 0x1000#32) [], .access (.wr 0x08#6 4 3#32) [],
      .access (.wr 0x00#6 4 0x07000000#32) [], .access (.rd 0x10#6 4) []] ++ [] :=
  ⟨by decide, foo_holds, rfl⟩

theorem witness_ChecksumIsObserved : observeState.halted = false ∧
    ({ observeState with addr := 0x1000#32, len := 3#32 } : State).HoldsKey [0x66#8, 0x6F#8, 0x6F#8] ∧
    observeState.pending = [.access (.wr 0x04#6 4 0x1000#32) [], .access (.wr 0x08#6 4 3#32) [],
      .access (.wr 0x00#6 4 0x04000000#32) [], .access (.rd 0x10#6 4) []] ++ [] :=
  ⟨by decide, foo_holds, rfl⟩

/-- A state that meets the invariant with a fault recorded, a tag found and a key in memory. -/
theorem witness_EveryStepKeepsTheInvariant :
    ({ tagState with
        status := 0x00000033#32, finfo := 4#32, ekoff := 4#32, eklen := 3#32, result := 1#32
        pending := [.access (.wr 0x08#6 4 4#32) []] } : State).Inv ∧
    ∃ t, step { tagState with
        status := 0x00000033#32, finfo := 4#32, ekoff := 4#32, eklen := 3#32, result := 1#32
        pending := [.access (.wr 0x08#6 4 4#32) []] } = .next t := by
  refine ⟨?_, _, rfl⟩
  unfold State.Inv
  decide +kernel

theorem witness_GoodRunsNeverFault : (∃ t, GoodRun [.access (.wr 0x08#6 4 0#32) []] t) ∧
    Event.reset ∉ [Event.access (.wr 0x08#6 4 0#32) []] := by
  refine ⟨⟨_, rfl, ?_⟩, by decide⟩
  decide

theorem witness_PseudoInstructionsExpand : [0x31#8, 0x32#8] ≠ ([] : List Byte) ∧ ∀ c ∈ ['1', '2'], c.toNat < 128 := by
  simp

theorem witness_CommandLinesEncode : 256 ≤ 256 ∧ 64 ≤ 64 := by decide

end Sys2Proof.Tests
end

section
/-! SUPPORT. The register window in the terms that claims are made in: which accesses are legal as conditions on kind, offset,
size and register, what a legal or an illegal access answers, and the entries of the table. -/

namespace Sys2Proof.Machine

/-- RD is allowed at every register but CMD (the access column of 10_state.md R23). -/
@[simp] theorem Reg.readable_iff (r : Reg) : r.readable = true ↔ r ≠ .cmd := by
  cases r <;> decide

/-- WR is allowed at CMD, ADDR and LEN alone (the access column of 10_state.md R23). -/
@[simp] theorem Reg.writable_iff (r : Reg) : r.writable = true ↔ r = .cmd ∨ r = .addr ∨ r = .len := by
  cases r <;> decide

theorem Access.rd_target_eq_some_iff (o : BitVec 6) (n : Nat) (r : Reg) :
    (Access.rd o n).target = some r ↔ n = 4 ∧ o = offsetOf r ∧ r ≠ .cmd := by
  simp only [Access.target_eq_some_iff, Access.size, Access.offset, Access.allowedAt, Reg.readable_iff]

theorem Access.wr_target_eq_some_iff (o : BitVec 6) (n : Nat) (w : Word) (r : Reg) :
    (Access.wr o n w).target = some r ↔ n = 4 ∧ o = offsetOf r ∧ (r = .cmd ∨ r = .addr ∨ r = .len) := by
  simp only [Access.target_eq_some_iff, Access.size, Access.offset, Access.allowedAt, Reg.writable_iff]

/-- No two registers share an offset (10_state.md R23). -/
theorem offsetOf_injective : Function.Injective offsetOf := fun r q h =>
  Option.some.inj (((regAt_eq_some_iff _ r).mpr rfl).symm.trans ((regAt_eq_some_iff _ q).mpr h))

theorem Access.wr_target_eq_none_of_not_writable {r : Reg} (h : r.writable = false) (n : Nat) (w : Word) :
    (Access.wr (offsetOf r) n w).target = none := by
  refine Option.eq_none_iff_forall_ne_some.mpr fun q hq => ?_
  obtain ⟨-, ho, hw⟩ := (Access.target_eq_some_iff _ q).mp hq
  have hrq : r = q := offsetOf_injective ho
  exact Bool.false_ne_true (h.symm.trans (hrq ▸ hw))

/-- A legal RD returns the register and does nothing else (10_state.md R23). -/
theorem performAccess_rd {o : BitVec 6} {n : Nat} {r : Reg} (h : (Access.rd o n).target = some r) (s : State) :
    performAccess s (.rd o n) = .next (s.returnData (s.readReg r)) := by
  simp [performAccess, h]

/-- A legal WR is the write of the register it reaches (10_state.md R23). -/
theorem performAccess_wr {o : BitVec 6} {n : Nat} {w : Word} {r : Reg} (h : (Access.wr o n w).target = some r)
    (s : State) : performAccess s (.wr o n w) = writeReg s w r := by
  simp [performAccess, h]

theorem performAccess_illegal {a : Access} (h : a.target = none) (s : State) :
    performAccess s a = .next (s.illegalAccess a) := by
  simp [performAccess, h]

/-- Raising a fault, halted or not, in the terms of claims (60_exceptions.md R151, R152). -/
theorem State.raise_eq_ite (s : State) (c : FaultCause) (v : Word) :
    s.raise c v = if s.halted then s else s.faulted c v := rfl

/-- An illegal RD in the terms of claims: at most the fault registers change, and 0 is returned (10_state.md R23). -/
theorem State.illegalAccess_rd (s : State) (o : BitVec 6) (n : Nat) :
    s.illegalAccess (.rd o n) =
      { (if s.halted then s else s.faulted .bus (o.setWidth 32)) with reads := s.reads ++ [0x00000000#32] } := by
  rw [← State.raise_eq_ite, ← State.raise_reads s .bus (o.setWidth 32)]
  rfl

/-- NSLOTS reads as the constant of the configuration, whatever the state (10_state.md R32). -/
@[simp] theorem State.readReg_nslots (s : State) : s.readReg .nslots = 0x00004000#32 := rfl

/-- TABLE has one entry per byte (10_state.md R35). -/
@[simp] theorem tableRom_length : tableRom.length = 256 := by
  simp [tableRom]

/-- Entry `i` of TABLE is the value that R100 computes for `i` (40_table.md R100). -/
theorem tableRom_getElem? (i : Byte) : tableRom[i.toNat]? = some (tableEntry i) := by
  have hi : i.toNat < 256 := i.isLt
  simp [tableRom, List.getElem?_range hi]

end Sys2Proof.Machine
end

section
/-! The statements about the register window and the reset state (10_state.md R23, R32, R37). -/

namespace Sys2Proof.Machine

/-- Settles O7: the legality clauses are the inversion of `Access.target`, and each effect is the rule of a legal or an illegal
access at that target. -/
theorem registerAccessFollowsTheMap : Obligations.RegisterAccessFollowsTheMap := by
  have hwr : ∀ (s : State) (w : Word) (r : Reg), (r = .cmd ∨ r = .addr ∨ r = .len) →
      performAccess s (.wr (offsetOf r) 4 w) = writeReg s w r := fun s w r hr =>
    performAccess_wr ((Access.wr_target_eq_some_iff _ 4 w r).mpr ⟨rfl, rfl, hr⟩) s
  refine ⟨by decide, Access.rd_target_eq_some_iff, Access.wr_target_eq_some_iff, ?legalRd, ?legalWr, ?illegalRd, ?illegalWr⟩
  case legalRd => exact fun s o r h => performAccess_rd h s
  case legalWr => exact fun s w => ⟨hwr s w .addr (by simp), hwr s w .len (by simp), hwr s w .cmd (by simp)⟩
  case illegalRd => exact fun s o n h => (performAccess_illegal h s).trans (congrArg _ (s.illegalAccess_rd o n))
  case illegalWr => exact fun s o n w h => performAccess_illegal h s

/-- Settles O11: every state reads NSLOTS as the constant, by `State.readReg_nslots`, and no WR reaches it. -/
theorem nslotsReadsAsTheConstant : Obligations.NslotsReadsAsTheConstant := by
  have hrd : (Access.rd 0x24#6 4).target = some .nslots :=
    (Access.rd_target_eq_some_iff _ 4 .nslots).mpr ⟨rfl, rfl, by decide⟩
  have hsame : ∀ s t : State, t.readReg .nslots = s.readReg .nslots := by simp
  exact ⟨performAccess_rd hrd, fun _ s t _ => hsame s t, fun s => hsame s s.resetCore,
    Access.wr_target_eq_none_of_not_writable (r := .nslots) rfl, by decide⟩

/-- Settles O27: the register values and the fields of STATUS are those of `State.reset`, and the table is that of every state. -/
theorem resetStateIsAsTabled : Obligations.ResetStateIsAsTabled := by
  refine ⟨rfl, rfl, rfl, rfl, rfl, rfl, rfl, rfl, ?fault, ?tag, ?cause, State.readReg_nslots _, tableRom_length,
    tableRom_getElem?⟩
  case fault | tag | cause => decide

end Sys2Proof.Machine
end

section
/-! SUPPORT. The memory commands in the terms of claims: which they are, what each outcome of the region check makes of one,
and when a region has a first gap (20_memory.md R54). -/

namespace Sys2Proof.Machine

theorem readsKey_iff (i : Instr) : readsKey i = true ↔ i = .chksum ∨ i = .tagext ∨ i = .keyslot := by
  cases i <;> simp [readsKey]

/-- A memory command of a running core is the region check and then an effect on the key that never halts (20_memory.md R54). -/
theorem exec_eq_withKey {s : State} {i : Instr} (hi : readsKey i = true) (hrun : s.halted = false) :
    ∃ f : List Byte → State, (∀ xs, (f xs).halted = false) ∧ exec i s = .next (s.withKey f) := by
  obtain rfl | rfl | rfl := (readsKey_iff i).mp hi
  all_goals exact ⟨_, fun xs => by simp [State.writeTagOf, hrun], State.perform_of_running hrun _⟩

theorem exec_of_lenNegative {s : State} {i : Instr} (hi : readsKey i = true) (hrun : s.halted = false)
    (hneg : s.lenNegative = true) : exec i s = .next (s.faulted .lenNegative s.len) := by
  obtain ⟨f, -, hf⟩ := exec_eq_withKey hi hrun
  rw [hf, State.withKey_of_lenNegative hneg, State.raise_of_running hrun]
  rfl

theorem exec_of_firstGap {s : State} {i : Instr} {k : Nat} (hi : readsKey i = true) (hrun : s.halted = false)
    (hgap : s.FirstGap k) : exec i s = .next (s.faulted .region (BitVec.ofNat 32 k)) := by
  obtain ⟨f, -, hf⟩ := exec_eq_withKey hi hrun
  rw [hf, State.withKey_of_firstGap hgap, State.raise_of_running hrun]
  rfl

theorem exec_of_holdsKey {s : State} {i : Instr} {xs : List Byte} (hi : readsKey i = true) (hrun : s.halted = false)
    (hkey : s.HoldsKey xs) : ∃ t, exec i s = .next t ∧ t.halted = false := by
  obtain ⟨f, hlive, hf⟩ := exec_eq_withKey hi hrun
  exact ⟨f xs, by rw [hf, State.withKey_of_holdsKey hkey], hlive xs⟩

/-- Where every byte of the region can be read, a key stands in memory. -/
theorem State.exists_holdsKey {s : State} (hneg : s.lenNegative = false)
    (hall : ∀ k < s.keyLen, (s.mem.byte? (s.addr.toNat + k)).isSome = true) : ∃ xs, s.HoldsKey xs := by
  obtain h | ⟨k, -, hk, hnone, -⟩ | h := s.region_cases
  · simp [hneg] at h
  · simpa [hnone] using hall k hk
  · exact h

/-- An offset of the region whose byte cannot be read has the first gap at or below it. -/
theorem State.exists_firstGap_le {s : State} {j : Nat} (hneg : s.lenNegative = false) (hj : j < s.keyLen)
    (hnone : s.mem.byte? (s.addr.toNat + j) = none) : ∃ k ≤ j, s.FirstGap k := by
  obtain h | ⟨k, hgap⟩ | ⟨xs, -, hlen, hbytes⟩ := s.region_cases
  · simp [hneg] at h
  · refine ⟨k, Nat.le_of_not_lt fun hjk => ?_, hgap⟩
    obtain ⟨-, -, -, hsome⟩ := hgap
    simpa [hnone] using hsome j hjk
  · simpa [hnone] using hbytes j (hlen ▸ hj)

/-- A region that runs past 2^32 - 1 has a gap no later than at 2^32: the address sum never wraps (20_memory.md R54). -/
theorem State.exists_firstGap_of_past_top {s : State} (hneg : s.lenNegative = false)
    (htop : 2 ^ 32 < s.addr.toNat + s.keyLen) : ∃ k, s.FirstGap k ∧ s.addr.toNat + k ≤ 2 ^ 32 := by
  have haddr : s.addr.toNat < 2 ^ 32 := s.addr.isLt
  have hsum : s.addr.toNat + (2 ^ 32 - s.addr.toNat) = 2 ^ 32 := by omega
  obtain ⟨k, hk, hgap⟩ := State.exists_firstGap_le (j := 2 ^ 32 - s.addr.toNat) hneg (by omega)
    (Memory.byte?_of_ge _ hsum.ge)
  exact ⟨k, hgap, by omega⟩

end Sys2Proof.Machine
end

section
/-! The statement about the region check of the memory commands (20_memory.md R54). -/

namespace Sys2Proof.Machine

/-- Settles O17: one rule of `exec` for each outcome of the region check; with n = 0 every byte is admitted, there being none. -/
theorem regionCheckComesFirst : Obligations.RegionCheckComesFirst := by
  refine ⟨readsKey_iff, fun s i hi hrun => ?_⟩
  have hcontinues : s.lenNegative = false → (∀ k < s.keyLen, (s.mem.byte? (s.addr.toNat + k)).isSome = true) →
      ∃ t, exec i s = .next t ∧ t.halted = false := fun hneg hall =>
    let ⟨_, hkey⟩ := State.exists_holdsKey hneg hall
    exec_of_holdsKey hi hrun hkey
  have hempty : s.keyLen = 0 → ∀ k < s.keyLen, (s.mem.byte? (s.addr.toNat + k)).isSome = true :=
    fun hn k hk => absurd (hn ▸ hk) k.not_lt_zero
  exact ⟨exec_of_lenNegative hi hrun, fun k => exec_of_firstGap hi hrun, fun hneg hn => hcontinues hneg (hempty hn),
    hcontinues, State.exists_firstGap_of_past_top⟩

end Sys2Proof.Machine
end

section
/-! SUPPORT. The command word in the terms of claims: a word is its three fields, which fields decode to which command, which
select a row of the opcode map, and what the CMD write of a word with no command does (30_encoding.md R70, R75, R76). -/

namespace Sys2Proof.Machine

/-- A word has no bit outside OPC, RSV and IMM8 (30_encoding.md R70). -/
theorem word_eq_iff_fields (w v : Word) :
    w = v ↔ fieldOpc w = fieldOpc v ∧ fieldRsv w = fieldRsv v ∧ fieldImm8 w = fieldImm8 v := by
  refine ⟨by rintro rfl; simp, fun ⟨hopc, hrsv, himm⟩ => BitVec.eq_of_toNat_eq ?_⟩
  simp only [fieldOpc, fieldRsv, fieldImm8, BitVec.toNat_eq, BitVec.extractLsb'_toNat, Nat.shiftRight_eq_div_pow] at *
  omega

/-- A row of the opcode map constrains each field by that field of its mask and its match (30_encoding.md R75). -/
theorem selectsRow_iff_fields (w : Word) (row : Word × Word) :
    selectsRow w row ↔ fieldOpc w &&& fieldOpc row.2 = fieldOpc row.1 ∧
      fieldRsv w &&& fieldRsv row.2 = fieldRsv row.1 ∧ fieldImm8 w &&& fieldImm8 row.2 = fieldImm8 row.1 := by
  simp only [selectsRow, word_eq_iff_fields, fieldOpc, fieldRsv, fieldImm8, BitVec.extractLsb'_and]

theorem decodeNoOperand_eq_ok_iff (w : Word) (i j : Instr) :
    decodeNoOperand w i = .ok j ↔ i = j ∧ fieldImm8 w = 0#8 := by
  unfold decodeNoOperand
  split <;> simp [*]

/-- A word decodes to a command exactly when its fields are the command's (30_encoding.md R70, R75). -/
theorem decode_eq_ok_iff (w : Word) (i : Instr) :
    decode w = .ok i ↔ fieldOpc w = opcOf i ∧ fieldRsv w = 0#16 ∧ fieldImm8 w = imm8Of i := by
  constructor
  case mp =>
    intro h
    unfold decode at h
    split at h
    · cases h
    next hrsv =>
      have hrsv : fieldRsv w = 0#16 := not_not.mp hrsv
      split at h
      case h_8 => cases h
      case h_1 hopc | h_3 hopc =>
        cases h
        exact ⟨BitVec.eq_of_toNat_eq hopc, hrsv, rfl⟩
      case h_2 hopc | h_4 hopc | h_5 hopc | h_6 hopc | h_7 hopc =>
        obtain ⟨rfl, himm⟩ := (decodeNoOperand_eq_ok_iff _ _ _).mp h
        exact ⟨BitVec.eq_of_toNat_eq hopc, hrsv, himm⟩
  case mpr =>
    rintro ⟨hopc, hrsv, himm⟩
    cases i <;> simp_all [decode, decodeNoOperand, opcOf, imm8Of]

/-- The row of the opcode map that a command stands in (30_encoding.md R75). -/
def rowOf : Instr → Word × Word
  | .tblrd _ => (0x01000000#32, 0xFFFFFF00#32)
  | .crcclr => (0x02000000#32, 0xFFFFFFFF#32)
  | .crcupd _ => (0x03000000#32, 0xFFFFFF00#32)
  | .chksum => (0x04000000#32, 0xFFFFFFFF#32)
  | .tagext => (0x05000000#32, 0xFFFFFFFF#32)
  | .slotred => (0x06000000#32, 0xFFFFFFFF#32)
  | .keyslot => (0x07000000#32, 0xFFFFFFFF#32)

/-- The command of the same row with the operand `b`, where the row has one (30_encoding.md R75). -/
def withOperand (b : Byte) : Instr → Instr
  | .tblrd _ => .tblrd b
  | .crcupd _ => .crcupd b
  | i => i

@[simp] theorem withOperand_imm8Of (i : Instr) : withOperand (imm8Of i) i = i := by
  cases i <;> rfl

@[simp] theorem opcOf_withOperand (b : Byte) (i : Instr) : opcOf (withOperand b i) = opcOf i := by
  cases i <;> rfl

/-- The rows of the opcode map are those of the commands. -/
theorem mem_opcodeRows_iff (row : Word × Word) : row ∈ opcodeRows ↔ ∃ i, row = rowOf i := by
  constructor
  case mp =>
    simp only [opcodeRows, List.mem_cons, List.not_mem_nil, or_false]
    rintro (rfl | rfl | rfl | rfl | rfl | rfl | rfl)
    exacts [⟨.tblrd 0, rfl⟩, ⟨.crcclr, rfl⟩, ⟨.crcupd 0, rfl⟩, ⟨.chksum, rfl⟩, ⟨.tagext, rfl⟩, ⟨.slotred, rfl⟩,
      ⟨.keyslot, rfl⟩]
  case mpr =>
    rintro ⟨i, rfl⟩
    cases i <;> simp [opcodeRows, rowOf]

/-- The match of a row is its command's OPC alone. -/
theorem fields_rowOf_match (i : Instr) :
    fieldOpc (rowOf i).1 = opcOf i ∧ fieldRsv (rowOf i).1 = 0#16 ∧ fieldImm8 (rowOf i).1 = 0#8 := by
  cases i <;> (simp only [rowOf, opcOf]; decide)

/-- The mask of a row keeps OPC and RSV whole. -/
theorem fields_rowOf_mask (i : Instr) :
    fieldOpc (rowOf i).2 = BitVec.allOnes 8 ∧ fieldRsv (rowOf i).2 = BitVec.allOnes 16 := by
  cases i <;> (simp only [rowOf]; decide)

/-- The mask of a row drops IMM8 where the command has an operand and keeps it otherwise. -/
theorem imm8_masked_rowOf (i : Instr) (b : Byte) :
    b &&& fieldImm8 (rowOf i).2 = 0#8 ↔ b = imm8Of (withOperand b i) := by
  have hdrop : fieldImm8 0xFFFFFF00#32 = 0#8 := by decide
  have hkeep : fieldImm8 0xFFFFFFFF#32 = BitVec.allOnes 8 := by decide
  cases i with
  | tblrd | crcupd => simp only [rowOf, withOperand, imm8Of, hdrop, BitVec.and_zero]
  | crcclr | chksum | tagext | slotred | keyslot =>
    simp only [rowOf, withOperand, imm8Of, hkeep, BitVec.and_allOnes]

/-- A word selects a row of the opcode map exactly when it decodes to that row's command, with IMM8 as its operand where the
row has one (30_encoding.md R75). -/
theorem selectsRow_rowOf_iff (w : Word) (i : Instr) :
    selectsRow w (rowOf i) ↔ decode w = .ok (withOperand (fieldImm8 w) i) := by
  obtain ⟨hopc, hrsv, himm⟩ := fields_rowOf_match i
  obtain ⟨hopcMask, hrsvMask⟩ := fields_rowOf_mask i
  rw [selectsRow_iff_fields, decode_eq_ok_iff, opcOf_withOperand, hopc, hrsv, himm, hopcMask, hrsvMask,
    BitVec.and_allOnes, BitVec.and_allOnes, imm8_masked_rowOf]

/-- A word that decodes to a command selects the command's row (30_encoding.md R75). -/
theorem selectsRow_of_decode {w : Word} {i : Instr} (h : decode w = .ok i) : selectsRow w (rowOf i) := by
  obtain ⟨-, -, himm⟩ := (decode_eq_ok_iff w i).mp h
  rw [selectsRow_rowOf_iff, himm, withOperand_imm8Of, h]

theorem exists_decode_eq_error_iff_forall (w : Word) : (∃ e, decode w = .error e) ↔ ∀ i, decode w ≠ .ok i := by
  cases decode w <;> simp

/-- The words with no command are those that select no row (30_encoding.md R75, R76). -/
theorem exists_decode_eq_error_iff_rows (w : Word) :
    (∃ e, decode w = .error e) ↔ ∀ row ∈ opcodeRows, ¬ selectsRow w row := by
  rw [exists_decode_eq_error_iff_forall]
  constructor
  case mp =>
    intro h row hrow hsel
    obtain ⟨i, rfl⟩ := (mem_opcodeRows_iff row).mp hrow
    exact h _ ((selectsRow_rowOf_iff w i).mp hsel)
  case mpr =>
    exact fun h i hi => h _ ((mem_opcodeRows_iff _).mpr ⟨i, rfl⟩) (selectsRow_of_decode hi)

/-- The words with no command by their fields (30_encoding.md R76). -/
theorem exists_decode_eq_error_iff_fields (w : Word) :
    (∃ e, decode w = .error e) ↔
      fieldOpc w = 0x00#8 ∨ 0x08#8 ≤ fieldOpc w ∨ fieldRsv w ≠ 0#16 ∨
        ((fieldOpc w = 0x02#8 ∨ fieldOpc w = 0x04#8 ∨ fieldOpc w = 0x05#8 ∨ fieldOpc w = 0x06#8 ∨ fieldOpc w = 0x07#8) ∧
          fieldImm8 w ≠ 0#8) := by
  rw [exists_decode_eq_error_iff_forall]
  simp only [ne_eq, decode_eq_ok_iff]
  constructor
  case mp =>
    intro hnone
    by_contra hlist
    simp only [not_or, not_and, not_not] at hlist
    obtain ⟨hzero, hhigh, hrsv, himm⟩ := hlist
    have hopc : fieldOpc w = 0x01#8 ∨ fieldOpc w = 0x03#8 ∨ fieldOpc w = 0x02#8 ∨ fieldOpc w = 0x04#8 ∨
      fieldOpc w = 0x05#8 ∨ fieldOpc w = 0x06#8 ∨ fieldOpc w = 0x07#8 := by bv_omega
    obtain hopc | hopc | hopc := hopc
    · exact hnone (.tblrd _) ⟨hopc, hrsv, rfl⟩
    · exact hnone (.crcupd _) ⟨hopc, hrsv, rfl⟩
    · have himm := himm hopc
      obtain hopc | hopc | hopc | hopc | hopc := hopc
      exacts [hnone .crcclr ⟨hopc, hrsv, himm⟩, hnone .chksum ⟨hopc, hrsv, himm⟩, hnone .tagext ⟨hopc, hrsv, himm⟩,
        hnone .slotred ⟨hopc, hrsv, himm⟩, hnone .keyslot ⟨hopc, hrsv, himm⟩]
  case mpr =>
    rintro hlist i ⟨hopc, hrsv, himm⟩
    rw [hopc, hrsv, himm] at hlist
    cases i <;> simp [opcOf, imm8Of] at hlist

/-- The CMD write of a word with no command raises ILLEGAL_CMD with that word (30_encoding.md R75, R76). -/
theorem raisesIllegal_of_decode {w : Word} (h : ∃ e, decode w = .error e) : RaisesIllegal w := by
  intro s hrun
  have hcmd : (Access.wr 0x00#6 4 w).target = some .cmd := (Access.wr_target_eq_some_iff _ 4 w .cmd).mpr (by decide)
  obtain ⟨e, he⟩ := h
  rw [performAccess_wr hcmd]
  simp [writeReg, issue, hrun, he, State.raise_eq_ite]

/-- Two rows that one word selects have matches that agree where both masks look. -/
theorem selectsRow_and {w : Word} {r q : Word × Word} (hr : selectsRow w r) (hq : selectsRow w q) :
    r.1 &&& q.2 = q.1 &&& r.2 := by
  rw [← hr, ← hq, BitVec.and_assoc, BitVec.and_assoc, BitVec.and_comm r.2]

/-- No word selects two rows of the opcode map (30_encoding.md R75). -/
theorem opcodeRows_pairwise_disjoint :
    opcodeRows.Pairwise fun r q => ∀ w : Word, ¬ (selectsRow w r ∧ selectsRow w q) := by
  have hdiffer : opcodeRows.Pairwise fun r q => r.1 &&& q.2 ≠ q.1 &&& r.2 := by decide
  exact hdiffer.imp fun hne w ⟨hr, hq⟩ => hne (selectsRow_and hr hq)

end Sys2Proof.Machine
end

section
/-! The statements about which word is which command (30_encoding.md R75, R76). -/

namespace Sys2Proof.Machine

/-- Settles O2: selecting a command's row is decoding to it (`selectsRow_rowOf_iff`), so a word that
selects none has no command. -/
theorem decodeFollowsTheOpcodeMap : Obligations.DecodeFollowsTheOpcodeMap := by
  refine ⟨fun w => ?_, opcodeRows_pairwise_disjoint⟩
  have hrow := fun i => (selectsRow_rowOf_iff w i).mp
  have hnone := (exists_decode_eq_error_iff_rows w).mpr
  exact ⟨hrow (.tblrd 0), hrow .crcclr, hrow (.crcupd 0), hrow .chksum, hrow .tagext, hrow .slotred, hrow .keyslot,
    fun h => ⟨hnone h, raisesIllegal_of_decode (hnone h)⟩⟩

/-- Settles O3: the words with no command, by their fields and by the rows of the opcode map. -/
theorem illegalWordsAreThoseListed : Obligations.IllegalWordsAreThoseListed :=
  ⟨fun w => ⟨exists_decode_eq_error_iff_fields w, exists_decode_eq_error_iff_rows w, raisesIllegal_of_decode⟩, _, rfl⟩

end Sys2Proof.Machine
end

section
/-! SUPPORT. The assembler's lines on operands that are in range, as the numbers of words and bytes (30_encoding.md R79 to
R81). -/

namespace Sys2Proof.Machine

/-- A host write whose operands are in range: each is the number of a register offset and of a u32 (30_encoding.md R80). -/
@[simp] theorem writeLine_toNat (o : BitVec 6) (v : Word) :
    writeLine o.toNat v.toNat = some [.access (.wr o 4 v) []] := by
  have ho : o.toNat < 64 := o.isLt
  have hv : v.toNat < 4294967296 := v.isLt
  simp [writeLine, offsetLegal, imm32Legal, ho, hv]

/-- Every byte is an `<imm8>` the assembler accepts (30_encoding.md R79). -/
@[simp] theorem immLine_toNat (f : Byte → Instr) (b : Byte) : immLine f b.toNat = some (commandLine (f b)) := by
  have hb : b.toNat < 256 := b.isLt
  simp [immLine, imm8Legal, hb]

/-- SETKEY is the writes of ADDR and LEN, in order (30_encoding.md R81). -/
@[simp] theorem setKeyLines_toNat (a n : Word) : setKeyLines a.toNat n.toNat =
    some [.access (.wr (offsetOf .addr) 4 a) [], .access (.wr (offsetOf .len) 4 n) []] := by
  simp [setKeyLines]

/-- CHECKSUM and SLOT are SETKEY and then one command (30_encoding.md R81). -/
theorem keyLines_toNat (a n : Word) (i : Instr) : keyLines a.toNat n.toNat i =
    some [.access (.wr (offsetOf .addr) 4 a) [], .access (.wr (offsetOf .len) 4 n) [], cmdWrite (encode i)] := by
  simp [keyLines, commandLine]

/-- CRCBYTES is one CRCUPD per byte, in order (30_encoding.md R81). -/
theorem bytesLines_map_toNat (bs : List Byte) :
    bytesLines (bs.map BitVec.toNat) = some (bs.map fun b => cmdWrite (encode (.crcupd b))) := by
  induction bs with
  | nil => rfl
  | cons b bs ih => simp [bytesLines, ih, commandLine]

/-- The codes of ASCII characters are bytes, one per character and in order (00_scope.md R7). -/
theorem mapM_asciiOf {cs : List Char} (h : ∀ c ∈ cs, c.toNat < 128) :
    cs.mapM asciiOf = some ((cs.map fun c => BitVec.ofNat 8 c.toNat).map BitVec.toNat) := by
  induction cs with
  | nil => rfl
  | cons c cs ih =>
    obtain ⟨hc, hcs⟩ := List.forall_mem_cons.mp h
    have hmod : c.toNat % 256 = c.toNat := Nat.mod_eq_of_lt (by omega)
    simp [List.mapM_cons, asciiOf, hc, hmod, ih hcs]

/-- The word of CRCUPD (30_encoding.md R79). -/
theorem encode_crcupd (b : Byte) : encode (.crcupd b) = 0x03000000#32 ||| b.setWidth 32 := by
  simp [encode, opcOf, imm8Of]

theorem encode_crcupd_ofNat {n : Nat} (h : n < 256) :
    encode (.crcupd (BitVec.ofNat 8 n)) = 0x03000000#32 ||| BitVec.ofNat 32 n := by
  have hcode : (BitVec.ofNat 8 n).setWidth 32 = BitVec.ofNat 32 n := by bv_omega
  rw [encode_crcupd, hcode]

end Sys2Proof.Machine
end

section
/-! The statement about the pseudo-instructions (30_encoding.md R81). -/

namespace Sys2Proof.Machine

/-- Settles O56: SETKEY is two writes in range, and the strings and byte lists are `bytesLines` of bytes. -/
theorem pseudoInstructionsExpand : Obligations.PseudoInstructionsExpand := by
  refine ⟨fun a n => ⟨setKeyLines_toNat a n, keyLines_toNat a n .chksum, keyLines_toNat a n .keyslot⟩,
    ?bytes, ?string, rfl⟩
  case bytes =>
    intro bs hne
    simp [Line.expand, hne, bytesLines_map_toNat, cmdWrite, encode_crcupd]
  case string =>
    intro cs hascii
    rw [Line.expand, mapM_asciiOf hascii, Option.bind_some, bytesLines_map_toNat, List.map_map]
    refine congrArg some (List.map_congr_left fun c hc => ?_)
    exact congrArg cmdWrite (encode_crcupd_ofNat (Nat.lt_trans (hascii c hc) (by decide)))

end Sys2Proof.Machine
end

section
/-! SUPPORT. The rounds that build the table: what one round computes, that rounds are an iterate and linear over XOR, and
what follows for the entries (40_table.md R100, R103). -/

namespace Sys2Proof.Machine

/-- Bit 15 tells the values of at least 2^15, those whose double leaves 16 bits. -/
theorem getLsbD_fifteen_iff (v : Half) : v.getLsbD 15 = true ↔ 2 ^ 15 ≤ v.toNat := by
  rw [← BitVec.msb_eq_getLsbD_last, BitVec.msb_eq_decide, decide_eq_true_iff]

/-- One round in arithmetic: double modulo 2^16, then the polynomial if a bit was shifted out (40_table.md R100). -/
theorem crcRound_toNat (v : Half) : (crcRound v).toNat =
    if 2 ^ 15 ≤ v.toNat then (2 * v.toNat % 2 ^ 16) ^^^ 0x1021 else 2 * v.toNat % 2 ^ 16 := by
  have hdouble : (v <<< 1).toNat = 2 * v.toNat % 2 ^ 16 := by
    rw [BitVec.toNat_shiftLeft, Nat.shiftLeft_eq, pow_one, mul_comm]
  simp only [crcRound, getLsbD_fifteen_iff, apply_ite BitVec.toNat, BitVec.toNat_xor, hdouble, Config.poly,
    BitVec.toNat_ofNat]

theorem crcRounds_eq_iterate (n : Nat) (v : Half) : crcRounds n v = crcRound^[n] v := by
  induction n generalizing v with
  | zero => rfl
  | succ n ih => exact ih (crcRound v)

/-- One round without a case split: bit 15 times the polynomial. -/
theorem crcRound_eq_xor (v : Half) : crcRound v = (v <<< 1) ^^^ (if v.getLsbD 15 then Config.poly else 0#16) := by
  unfold crcRound
  split <;> simp

/-- The round is linear: in a sum of two values with bit 15 set the polynomial cancels, as bit 15 does. -/
theorem crcRound_xor (v w : Half) : crcRound (v ^^^ w) = crcRound v ^^^ crcRound w := by
  have hpoly : (if (v ^^^ w).getLsbD 15 then Config.poly else 0#16) =
      (if v.getLsbD 15 then Config.poly else 0#16) ^^^ (if w.getLsbD 15 then Config.poly else 0#16) := by
    rw [BitVec.getLsbD_xor]
    cases v.getLsbD 15 <;> cases w.getLsbD 15 <;> simp
  rw [crcRound_eq_xor, crcRound_eq_xor, crcRound_eq_xor, hpoly, BitVec.shiftLeft_xor_distrib]
  ac_rfl

theorem crcRounds_xor (n : Nat) (v w : Half) : crcRounds n (v ^^^ w) = crcRounds n v ^^^ crcRounds n w := by
  induction n generalizing v w with
  | zero => rfl
  | succ n ih => simp only [crcRounds, crcRound_xor, ih]

/-- A byte placed in bits 15..8 is its number times 256 (40_table.md R100). -/
theorem byte_shiftLeft_eight (b : Byte) : (b.setWidth 16 : Half) <<< 8 = BitVec.ofNat 16 (256 * b.toNat) := by
  bv_omega

theorem tableEntry_eq_iterate (k : Byte) : tableEntry k = crcRound^[8] (BitVec.ofNat 16 (256 * k.toNat)) := by
  rw [tableEntry, crcRounds_eq_iterate, byte_shiftLeft_eight]

@[simp] theorem tableEntry_zero : tableEntry 0x00#8 = 0x0000#16 := by decide

/-- TABLE is linear over XOR (40_table.md R103). -/
theorem tableEntry_xor (a b : Byte) : tableEntry (a ^^^ b) = tableEntry a ^^^ tableEntry b := by
  rw [tableEntry, BitVec.setWidth_xor, BitVec.shiftLeft_xor_distrib, crcRounds_xor]
  rfl

/-- A byte is the XOR of its halves: AND distributes over XOR, and the two masks together keep every bit. -/
theorem byte_eq_xor_nibbles (b : Byte) : b = (b &&& 0xF0#8) ^^^ (b &&& 0x0F#8) := by
  have hdistrib : (b &&& 0xF0#8) ^^^ (b &&& 0x0F#8) = b &&& (0xF0#8 ^^^ 0x0F#8) := by
    ext i
    simp only [BitVec.getElem_xor, BitVec.getElem_and, Bool.and_xor_distrib_left]
  have hmasks : 0xF0#8 ^^^ 0x0F#8 = BitVec.allOnes 8 := by decide
  rw [hdistrib, hmasks, BitVec.and_allOnes]

/-- The checksum of one byte is one update step from 0, whose index is the byte (40_table.md R103; 41_crc.md R111). -/
theorem crc16_singleton (b : Byte) : crc16 [b] = tableEntry b := by
  simp [crc16, crcStep, Config.crcInit]

/-- A zero-extended u16 has no bit above bit 15. -/
theorem extractLsb'_high_setWidth (v : Half) : (v.setWidth 32 : Word).extractLsb' 16 16 = 0#16 := by
  ext i hi
  simp [BitVec.getLsbD_of_ge]

/-- TBLRD of a running core (40_table.md R102). -/
theorem exec_tblrd_of_running {s : State} (k : Byte) (h : s.halted = false) :
    exec (.tblrd k) s = .next (s.writeResult ((tableEntry k).setWidth 32)) :=
  State.perform_of_running h _

/-- A word with RSV other than 0 is no command (30_encoding.md R76). -/
theorem raisesIllegal_of_fieldRsv {w : Word} (h : fieldRsv w ≠ 0#16) : RaisesIllegal w :=
  raisesIllegal_of_decode ((exists_decode_eq_error_iff_fields w).mpr (.inr (.inr (.inl h))))

end Sys2Proof.Machine
end

section
/-! The statements about the table (40_table.md R100, R102, R103). -/

namespace Sys2Proof.Machine

/-- Settles O29: TBLRD writes RESULT alone, a zero-extended u16 has no bit above 15, and RSV decides whether a word with
OPC 0x01 is TBLRD. -/
theorem tblrdReadsTheTable : Obligations.TblrdReadsTheTable := by
  refine ⟨fun s k hrun => exec_tblrd_of_running k hrun, fun k => extractLsb'_high_setWidth _, ?word, tableEntry_zero,
    by decide, by decide⟩
  case word =>
    exact fun w hopc => ⟨fun hrsv => (decode_eq_ok_iff w _).mpr ⟨hopc, hrsv, rfl⟩, raisesIllegal_of_fieldRsv⟩

/-- Settles O38: the round in arithmetic, and the entry as the eighth iterate of it. -/
theorem tableIsBuiltByEightRounds : Obligations.TableIsBuiltByEightRounds :=
  ⟨crcRound_toNat, tableEntry_eq_iterate, tableRom_length, tableRom_getElem?⟩

/-- Settles O40: linearity is that of the rounds, the nibble split is linearity on the two halves of a byte, and the one-byte
checksum is one update step from 0. -/
theorem tableLaws : Obligations.TableLaws := by
  refine ⟨tableEntry_zero, tableEntry_xor, fun k => ?nibbles, by decide, by decide, by decide,
    fun k => (crc16_singleton k).symm⟩
  case nibbles => rw [← tableEntry_xor, ← byte_eq_xor_nibbles]

end Sys2Proof.Machine
end

section
/-! SUPPORT. The checksum as a fold, the update step as eight rounds with no table, and what each command that writes CRC
leaves (41_crc.md R110 to R118). -/

namespace Sys2Proof.Machine

/-! ## The update step and its fold -/

/-- The update step with its index as R110 writes it: the high byte of the register is a shift. -/
theorem crcStep_eq_shift (r : Half) (b : Byte) :
    crcStep r b = tableEntry ((r >>> 8).setWidth 8 ^^^ b) ^^^ (r <<< 8) := rfl

@[simp] theorem crc16_nil : crc16 [] = 0x0000#16 := rfl

/-- The checksum continues from that of the bytes before (41_crc.md R117). -/
theorem crc16_append (xs ys : List Byte) : crc16 (xs ++ ys) = ys.foldl crcStep (crc16 xs) :=
  List.foldl_append

/-- One more byte at the end is one more step (41_crc.md R111). -/
theorem crc16_concat (xs : List Byte) (b : Byte) : crc16 (xs ++ [b]) = crcStep (crc16 xs) b :=
  crc16_append xs [b]

@[simp] theorem crcStep_zero_zero : crcStep 0x0000#16 0x00#8 = 0x0000#16 := by decide

@[simp] theorem crc16_replicate_zero (m : Nat) : crc16 (List.replicate m 0x00#8) = 0x0000#16 := by
  induction m with
  | zero => rfl
  | succ m ih => rw [List.replicate_succ', crc16_concat, ih, crcStep_zero_zero]

/-- Leading zero bytes leave the register at its initial value (41_crc.md R118). -/
theorem crc16_replicate_zero_append (m : Nat) (ys : List Byte) : crc16 (List.replicate m 0x00#8 ++ ys) = crc16 ys := by
  rw [crc16_append, crc16_replicate_zero]
  rfl

/-! ## The update step with no table -/

/-- A register is its high byte in bits 15..8 XOR its low byte. -/
theorem half_eq_xor_bytes (r : Half) :
    r = ((r.extractLsb' 8 8).setWidth 16 <<< 8) ^^^ (r.setWidth 8).setWidth 16 := by
  refine BitVec.eq_of_getLsbD_eq fun i hi => ?_
  by_cases hlow : i < 8
  · simp [hlow, hi]
  · have hoff : i - 8 < 8 := by omega
    have hback : 8 + (i - 8) = i := by omega
    simp [hlow, hi, hoff, hback]

/-- Where `n` shifts drop no set bit, none of `n` rounds finds bit 15 set, and they only shift. -/
theorem crcRounds_eq_shiftLeft {n : Nat} {v : Half} (h : v.toNat * 2 ^ n < 2 ^ 16) : crcRounds n v = v <<< n := by
  induction n generalizing v with
  | zero => simp [crcRounds]
  | succ n ih =>
    have hrest : v.toNat * 2 * 2 ^ n < 2 ^ 16 := by rwa [mul_assoc, ← pow_succ']
    have hdouble : v.toNat * 2 < 2 ^ 16 := (Nat.le_mul_of_pos_right _ n.two_pow_pos).trans_lt hrest
    have hclear : ¬ v.getLsbD 15 = true := by rw [getLsbD_fifteen_iff]; omega
    have hround : crcRound v = v <<< 1 := if_neg hclear
    have hshift : (v <<< 1).toNat = v.toNat * 2 := by
      rw [BitVec.toNat_shiftLeft, Nat.shiftLeft_eq, pow_one, Nat.mod_eq_of_lt hdouble]
    rw [crcRounds, hround, ih (hshift ▸ hrest), ← BitVec.shiftLeft_add, Nat.add_comm]

/-- The low byte of the register reaches bit 15 only after the eighth round (41_crc.md R115). -/
theorem crcRounds_eight_low_byte (r : Half) : crcRounds 8 ((r.setWidth 8).setWidth 16) = r <<< 8 := by
  rw [crcRounds_eq_shiftLeft (by bv_omega)]
  bv_omega

/-- Eight rounds on the register with the byte XORed into its high byte are the update step: by linearity the high byte gives
the table entry and the low byte is shifted (41_crc.md R115). -/
theorem crcRounds_eight_xor_byte (r : Half) (b : Byte) : crcRounds 8 (r ^^^ (b.setWidth 16 <<< 8)) = crcStep r b := by
  have hsplit : r ^^^ (b.setWidth 16 <<< 8) =
      (r.extractLsb' 8 8 ^^^ b).setWidth 16 <<< 8 ^^^ (r.setWidth 8).setWidth 16 := by
    conv_lhs => rw [half_eq_xor_bytes r]
    rw [BitVec.setWidth_xor, BitVec.shiftLeft_xor_distrib]
    ac_rfl
  rw [hsplit, crcRounds_xor, crcRounds_eight_low_byte]
  rfl

/-! ## The commands that write CRC, in a running core -/

/-- CRCCLR (41_crc.md R112). -/
theorem exec_crcclr_of_running {s : State} (hrun : s.halted = false) :
    exec .crcclr s = .next (s.writeChecksum 0x0000#16) :=
  State.perform_of_running hrun _

/-- CRCUPD (41_crc.md R113). -/
theorem exec_crcupd_of_running {s : State} (b : Byte) (hrun : s.halted = false) :
    exec (.crcupd b) s = .next (s.writeChecksum (crcStep s.crc b)) :=
  State.perform_of_running hrun _

/-- CHKSUM of a key in memory (41_crc.md R114). -/
theorem exec_chksum_of_holdsKey {s : State} {xs : List Byte} (hrun : s.halted = false) (hkey : s.HoldsKey xs) :
    exec .chksum s = .next (s.writeChecksum (crc16 xs)) :=
  (State.perform_of_running hrun _).trans (congrArg _ (State.withKey_of_holdsKey hkey _))

/-- KEYSLOT of a key in memory (43_slot.md R142). -/
theorem exec_keyslot_of_holdsKey {s : State} {xs : List Byte} (hrun : s.halted = false) (hkey : s.HoldsKey xs) :
    exec .keyslot s = .next (((s.writeTagOf xs).writeChecksum (crc16 (effectiveKey xs))).writeResult
      (slotWord (crc16 (effectiveKey xs)))) :=
  (State.perform_of_running hrun _).trans (congrArg _ (State.withKey_of_holdsKey hkey _))

/-! ## A chain of CRCUPD -/

theorem execAll_cons_of_next {i : Instr} {is : List Instr} {s t : State} (h : exec i s = .next t) :
    execAll (i :: is) s = execAll is t := by
  simp only [execAll, h]

/-- A chain of CRCUPD folds its bytes into the checksum it finds in CRC (41_crc.md R117). -/
theorem execAll_map_crcupd {s : State} (hrun : s.halted = false) (xs : List Byte) (c : Half) :
    execAll (xs.map .crcupd) (s.writeChecksum c) = .next (s.writeChecksum (xs.foldl crcStep c)) := by
  induction xs generalizing c with
  | nil => rfl
  | cons b xs ih =>
    have hstep : exec (.crcupd b) (s.writeChecksum c) = .next (s.writeChecksum (crcStep c b)) :=
      exec_crcupd_of_running b hrun
    rw [List.map_cons, execAll_cons_of_next hstep]
    exact ih _

/-- CRCCLR starts the chain from the initial value (41_crc.md R117). -/
theorem execAll_crcclr_map_crcupd {s : State} (hrun : s.halted = false) (xs : List Byte) :
    execAll (.crcclr :: xs.map .crcupd) s = .next (s.writeChecksum (crc16 xs)) := by
  rw [execAll_cons_of_next (exec_crcclr_of_running hrun)]
  exact execAll_map_crcupd hrun xs _

/-! ## Regions at the bounds of R114 -/

/-- With LEN = 0 the empty key stands at any ADDR. -/
theorem State.holdsKey_nil {s : State} (hlen : s.len = 0#32) : s.HoldsKey [] := by
  simp [State.HoldsKey, State.lenNegative, State.keyLen, hlen]

/-- Two bytes from the last address of the space: the second has no address (20_memory.md R54). -/
theorem State.firstGap_one_at_top {s : State} (haddr : s.addr = 0xFFFFFFFF#32) (hlen : s.len = 2#32)
    (hmem : s.mem.admitted 0xFFFFFFFF#32 = true) : s.FirstGap 1 := by
  have hbase : s.addr.toNat = 0xFFFFFFFF := by rw [haddr]; rfl
  refine ⟨by rw [State.lenNegative, hlen]; decide, by rw [State.keyLen, hlen]; decide, ?_, fun j hj => ?_⟩
  · exact Memory.byte?_of_ge _ (by omega)
  · obtain rfl : j = 0 := by omega
    rw [hbase]
    exact hmem

/-! ## Command words -/

/-- No two words decode to one command (30_encoding.md R75). -/
theorem eq_of_decode_eq {w v : Word} {i : Instr} (hw : decode w = .ok i) (hv : decode v = .ok i) : w = v := by
  obtain ⟨hwopc, hwrsv, hwimm⟩ := (decode_eq_ok_iff w i).mp hw
  obtain ⟨hvopc, hvrsv, hvimm⟩ := (decode_eq_ok_iff v i).mp hv
  exact (word_eq_iff_fields w v).mpr ⟨hwopc.trans hvopc.symm, hwrsv.trans hvrsv.symm, hwimm.trans hvimm.symm⟩

/-- A command that its OPC alone names has one word; every other word with that OPC is illegal (30_encoding.md R76). -/
theorem raisesIllegal_of_ne {w v : Word} {i : Instr} (hv : decode v = .ok i) (hi : ∀ j, opcOf j = opcOf i → j = i)
    (hopc : fieldOpc w = opcOf i) (hne : w ≠ v) : RaisesIllegal w := by
  refine raisesIllegal_of_decode ((exists_decode_eq_error_iff_forall w).mpr fun j hj => hne ?_)
  obtain ⟨hjopc, -, -⟩ := (decode_eq_ok_iff w j).mp hj
  obtain rfl : j = i := hi j (hjopc.symm.trans hopc)
  exact eq_of_decode_eq hj hv

end Sys2Proof.Machine
end

section
/-! The statements about the CRC-16 generator (41_crc.md R110 to R118). -/

namespace Sys2Proof.Machine

/-- Settles O30: CRCCLR writes the initial value, and with OPC 0x02 no other command exists. -/
theorem crcclrClearsTheRegister : Obligations.CrcclrClearsTheRegister := by
  have hword : decode 0x02000000#32 = .ok .crcclr := by decide
  have honly : ∀ j, opcOf j = opcOf .crcclr → j = .crcclr := fun j => by cases j <;> simp [opcOf]
  exact ⟨fun s hrun => exec_crcclr_of_running hrun, hword, fun w => raisesIllegal_of_ne hword honly⟩

/-- Settles O31: CRCUPD writes the update step of the old CRC, and RSV decides whether a word with OPC 0x03 is CRCUPD. -/
theorem crcupdFoldsOneByte : Obligations.CrcupdFoldsOneByte := by
  refine ⟨fun s b hrun => exec_crcupd_of_running b hrun, crcStep_zero_zero, by decide, by decide, by decide, ?word⟩
  case word =>
    exact fun w hopc => ⟨fun hrsv => (decode_eq_ok_iff w _).mpr ⟨hopc, hrsv, rfl⟩, raisesIllegal_of_fieldRsv⟩

/-- Settles O32: one rule of CHKSUM for each outcome of the region check; LEN = 0 is the empty key, and two bytes from the
top address have their first gap at 1. -/
theorem chksumOfTheKey : Obligations.ChksumOfTheKey := by
  have hword : decode 0x04000000#32 = .ok .chksum := by decide
  have honly : ∀ j, opcOf j = opcOf .chksum → j = .chksum := fun j => by cases j <;> simp [opcOf]
  refine ⟨fun s xs hrun hkey => exec_chksum_of_holdsKey hrun hkey, fun s => exec_of_lenNegative rfl,
    fun s k => exec_of_firstGap rfl, ?empty, crc16_replicate_zero, fun s => State.exists_holdsKey, ?top, ?digits,
    hword, fun w => raisesIllegal_of_ne hword honly⟩
  case empty => exact fun s hrun hlen => exec_chksum_of_holdsKey hrun (State.holdsKey_nil hlen)
  case digits => decide +kernel
  case top =>
    exact fun s hrun haddr hlen hmem => exec_of_firstGap rfl hrun (State.firstGap_one_at_top haddr hlen hmem)

/-- Settles O41: both are one fold, whose steps agree by `crcRounds_eight_xor_byte`. -/
theorem tableFoldIsBitwiseDivision : Obligations.TableFoldIsBitwiseDivision := by
  intro xs
  simp only [crcBitwise, crcRounds_eight_xor_byte]
  rfl

/-- Settles O43: the chain is the fold of its bytes from the initial value, and the rules of the commands that break it do not
mention the old CRC. -/
theorem checksumChains : Obligations.ChecksumChains := by
  refine ⟨crc16_append, fun s xs hrun => execAll_crcclr_map_crcupd hrun xs, ?agree, ?breaks⟩
  case agree =>
    exact fun s xs hrun hkey => (execAll_crcclr_map_crcupd hrun xs).trans (exec_chksum_of_holdsKey hrun hkey).symm
  case breaks =>
    intro s c hrun
    have hrun' : ({ s with crc := c } : State).halted = false := hrun
    refine ⟨(exec_crcclr_of_running hrun').trans (exec_crcclr_of_running hrun).symm, fun xs hkey => ?_⟩
    have hkey' : ({ s with crc := c } : State).HoldsKey xs := hkey
    exact ⟨(exec_chksum_of_holdsKey hrun' hkey').trans (exec_chksum_of_holdsKey hrun hkey).symm,
      (exec_keyslot_of_holdsKey hrun' hkey').trans (exec_keyslot_of_holdsKey hrun hkey).symm⟩

/-- Settles O44: a zero byte folded into the initial value leaves it, and a zero byte after "1" is one more step, with the
table entry shown. -/
theorem leadingZerosAreInvisible : Obligations.LeadingZerosAreInvisible := by
  have hone : crc16 [0x31#8] = 0x2672#16 := by decide
  have hentry : tableEntry 0x26#8 = 0x44A4#16 := by decide
  have hxor : (0x44A4#16 ^^^ 0x7200#16 : Half) = 0x36A4#16 := by decide
  have hstep : crcStep 0x2672#16 0x00#8 = 0x36A4#16 := by rw [← hxor, ← hentry]; rfl
  have htrailing : crc16 [0x31#8, 0x00#8] = 0x36A4#16 := by
    rw [← hstep, ← hone]
    exact crc16_concat [0x31#8] 0x00#8
  refine ⟨crcStep_zero_zero, crc16_replicate_zero_append, crc16_nil, crc16_replicate_zero 1, crc16_replicate_zero 2,
    ?slotEmpty, ?slotZero, ?slotZeros, hone, htrailing, hstep, hentry, hxor⟩
  case slotEmpty | slotZero | slotZeros => decide

/-- Settles O39: the high byte of the register is a shift, and the checksum is a fold. -/
theorem updateStepAndFold : Obligations.UpdateStepAndFold :=
  ⟨crcStep_eq_shift, crc16_nil, crc16_concat⟩

/-- Settles O42: a u16 is in range, and "ab" is a sequence whose checksum its reversal changes. -/
theorem checksumProperties : Obligations.ChecksumProperties := by
  have hab : crc16 [0x61#8, 0x62#8] = 0x74FF#16 := by decide +kernel
  have hba : crc16 [0x62#8, 0x61#8] = 0x11CF#16 := by decide +kernel
  refine ⟨fun xs => Nat.le_of_lt_succ (crc16 xs).isLt, crc16_nil, fun _ _ => congrArg crc16, hab, hba,
    [0x61#8, 0x62#8], ?reversed⟩
  case reversed => simp [hab, hba]

end Sys2Proof.Machine
end

section
/-! SUPPORT. The hash-tag extractor in the terms of claims: its answer for each finding about the first braces, what a tag
says about the key around it, the effective key as a sub-list, and TAGEXT on a key in memory (42_hashtag.md R130 to R132). -/

namespace Sys2Proof.Machine

/-! ## The rule, case by case on the first braces -/

/-- Without an opening brace the whole key is used (42_hashtag.md R130). -/
theorem tagExtract_of_no_open {xs : List Byte} (hno : 0x7B#8 ∉ xs) : tagExtract xs = ⟨0, xs.length, false⟩ := by
  obtain h | ⟨s, -, ⟨hopen, -⟩, -⟩ := tagExtract_cases xs
  · exact h
  · exact absurd (List.mem_of_getElem? hopen) hno

/-- Without a closing brace after the opening brace the whole key is used (42_hashtag.md R130). -/
theorem tagExtract_of_no_close {xs : List Byte} {s : Nat} (ho : FirstOpen xs s) (hno : ¬ ∃ e, FirstCloseAfter xs s e) :
    tagExtract xs = ⟨0, xs.length, false⟩ := by
  have hclose : (xs.drop (s + 1)).findIdx? (· == Config.tagClose) = none :=
    Option.eq_none_iff_forall_ne_some.mpr fun d hd => hno ⟨_, findClose_iff.mp hd⟩
  simp [tagExtract, findOpen_iff.mpr ho, hclose, wholeKey]

/-- With nothing between the first braces the whole key is used (42_hashtag.md R130). -/
theorem tagExtract_of_adjacent_braces {xs : List Byte} {s : Nat} (ho : FirstOpen xs s)
    (hc : FirstCloseAfter xs s (s + 1)) : tagExtract xs = ⟨0, xs.length, false⟩ := by
  have hclose : (xs.drop (s + 1)).findIdx? (· == Config.tagClose) = some 0 := findClose_iff.mpr hc
  simp [tagExtract, findOpen_iff.mpr ho, hclose, wholeKey]

/-- With a byte between the first braces what stands between them is the tag (42_hashtag.md R130). -/
theorem tagExtract_of_braces {xs : List Byte} {s e : Nat} (ho : FirstOpen xs s) (hc : FirstCloseAfter xs s e)
    (hne : e ≠ s + 1) : tagExtract xs = ⟨s + 1, e - s - 1, true⟩ := by
  obtain ⟨d, rfl⟩ : ∃ d, e = s + 1 + (d + 1) := by
    obtain ⟨hlt, -⟩ := hc
    exact ⟨e - s - 2, by omega⟩
  have hlen : s + 1 + (d + 1) - s - 1 = d + 1 := by omega
  simp [tagExtract, findOpen_iff.mpr ho, findClose_iff.mpr hc, hlen]

/-! ## The laws of the answer -/

/-- A brace found after the opening one lies in the key. -/
theorem FirstCloseAfter.lt_length {xs : List Byte} {s e : Nat} (hc : FirstCloseAfter xs s e) : e < xs.length := by
  obtain ⟨-, hclose, -⟩ := hc
  exact (List.getElem?_eq_some_iff.mp hclose).1

/-- The effective key lies in the key (42_hashtag.md R132). -/
theorem tagExtract_off_add_elen_le (xs : List Byte) : (tagExtract xs).off + (tagExtract xs).elen ≤ xs.length := by
  obtain h | ⟨s, e, -, hc, hlt, h⟩ := tagExtract_cases xs
  · simp [h]
  · have hend := hc.lt_length
    simp only [h]
    omega

/-- Where TAG is 0 the answer is the whole key (42_hashtag.md R132). -/
theorem tagExtract_of_tag_false {xs : List Byte} (htag : (tagExtract xs).tag = false) :
    tagExtract xs = ⟨0, xs.length, false⟩ := by
  obtain h | ⟨s, e, -, -, -, h⟩ := tagExtract_cases xs
  · exact h
  · simp [h] at htag

/-- Where TAG is 1 the answer comes from the first braces, with a byte between them (42_hashtag.md R132). -/
theorem exists_braces_of_tag {xs : List Byte} (htag : (tagExtract xs).tag = true) :
    ∃ s e, FirstOpen xs s ∧ FirstCloseAfter xs s e ∧ s + 1 < e ∧ tagExtract xs = ⟨s + 1, e - s - 1, true⟩ := by
  obtain h | h := tagExtract_cases xs
  · simp [h] at htag
  · exact h

/-! ## The effective key as a sub-list -/

/-- The effective key is read at the offset, up to its length (42_hashtag.md R130). -/
theorem effectiveKey_getElem? (xs : List Byte) (k : Nat) :
    (effectiveKey xs)[k]? = if k < (tagExtract xs).elen then xs[(tagExtract xs).off + k]? else none := by
  rw [effectiveKey, List.getElem?_take, List.getElem?_drop]

/-- A tag ends at the first closing brace, so it holds none (42_hashtag.md R132). -/
theorem not_mem_effectiveKey_of_tag {xs : List Byte} (htag : (tagExtract xs).tag = true) : 0x7D#8 ∉ effectiveKey xs := by
  obtain ⟨s, e, -, ⟨-, -, hfirst⟩, -, h⟩ := exists_braces_of_tag htag
  intro hmem
  obtain ⟨k, hk⟩ := List.mem_iff_getElem?.mp hmem
  simp only [effectiveKey_getElem?, h, Option.ite_none_right_eq_some] at hk
  obtain ⟨hlt, hclose⟩ := hk
  exact hfirst (s + 1 + k) (by omega) (by omega) hclose

/-! ## A key put together from its parts -/

/-- Past `p` and the byte after it, the rest of the key is read from its start. -/
theorem getElem?_append_cons_add (p ys : List Byte) (b : Byte) (i : Nat) :
    (p ++ b :: ys)[p.length + 1 + i]? = ys[i]? := by
  rw [List.getElem?_append_right (by omega), Nat.add_assoc, Nat.add_sub_cancel_left, Nat.add_comm, List.getElem?_cons_succ]

theorem firstOpen_append {p : List Byte} (hp : 0x7B#8 ∉ p) (ys : List Byte) :
    FirstOpen (p ++ 0x7B#8 :: ys) p.length := by
  refine ⟨by simp, fun j hj hopen => hp ?_⟩
  rw [List.getElem?_append_left hj] at hopen
  exact List.mem_of_getElem? hopen

theorem firstCloseAfter_append {q : List Byte} (hq : 0x7D#8 ∉ q) (p r : List Byte) (b : Byte) :
    FirstCloseAfter (p ++ b :: (q ++ 0x7D#8 :: r)) p.length (p.length + 1 + q.length) := by
  refine ⟨by omega, ?close, fun j hj hj' hclose => hq ?none⟩
  case close => simp [getElem?_append_cons_add]
  case none =>
    obtain ⟨i, rfl⟩ := Nat.exists_eq_add_of_le (Nat.succ_le_of_lt hj)
    rw [Nat.succ_eq_add_one, getElem?_append_cons_add, List.getElem?_append_left (by omega)] at hclose
    exact List.mem_of_getElem? hclose

/-- What stands between the first braces is the effective key (42_hashtag.md R132). -/
theorem effectiveKey_braces {p q : List Byte} (hp : 0x7B#8 ∉ p) (hne : q ≠ []) (hq : 0x7D#8 ∉ q) (r : List Byte) :
    effectiveKey (p ++ 0x7B#8 :: (q ++ 0x7D#8 :: r)) = q := by
  have hpos : 0 < q.length := List.length_pos_iff.mpr hne
  have hspan := tagExtract_of_braces (firstOpen_append hp _) (firstCloseAfter_append hq p r 0x7B#8) (by omega)
  have hlen : p.length + 1 + q.length - p.length - 1 = q.length := by omega
  simp [effectiveKey, hspan, hlen]

/-! ## TAGEXT, in a running core -/

/-- The zero extension of a flag (42_hashtag.md R131). -/
theorem setWidth_ofBool (b : Bool) : (BitVec.ofBool b).setWidth 32 = if b then 0x00000001#32 else 0x00000000#32 := by
  cases b <;> rfl

/-- TAGEXT of a key in memory (42_hashtag.md R131). -/
theorem exec_tagext_of_holdsKey {s : State} {xs : List Byte} (hrun : s.halted = false) (hkey : s.HoldsKey xs) :
    exec .tagext s = .next ((s.writeTagOf xs).writeResult
      (if (tagExtract xs).tag then 0x00000001#32 else 0x00000000#32)) := by
  rw [← setWidth_ofBool]
  exact (State.perform_of_running hrun _).trans (congrArg _ (State.withKey_of_holdsKey hkey _))

end Sys2Proof.Machine
end

section
/-! The statements about the hash-tag extractor (42_hashtag.md R130 to R132). -/

namespace Sys2Proof.Machine

/-- Settles O45: one rule of the extractor for each finding about the first braces; the effective key is defined as the
sub-list. -/
theorem tagExtractFollowsTheRule : Obligations.TagExtractFollowsTheRule := by
  refine ⟨fun xs => tagExtract_of_no_open, fun xs s => tagExtract_of_no_close, ?adjacent,
    fun xs s e => tagExtract_of_braces, fun xs => rfl⟩
  case adjacent =>
    rintro xs s _ ho hc rfl
    exact tagExtract_of_adjacent_braces ho hc

/-- Settles O46: a tag comes from the first braces of the key, at `s` and `e`, and each law reads off where they lie. -/
theorem tagExtractLaws : Obligations.TagExtractLaws := by
  refine ⟨fun xs => ⟨fun htag => ?whole, fun htag => ?tag, fun hno => ?noOpen⟩, fun xs ys => congrArg tagExtract, ?parts⟩
  case whole => simp [tagExtract_of_tag_false htag]
  case noOpen => rw [tagExtract_of_no_open hno]
  case parts =>
    intro p q r hp hne hq
    simpa using effectiveKey_braces hp hne hq r
  case tag =>
    have hkey := not_mem_effectiveKey_of_tag htag
    obtain ⟨s, e, ⟨hopen, hfirst⟩, hc, hlt, h⟩ := exists_braces_of_tag htag
    have hend := hc.lt_length
    obtain ⟨-, hclose, -⟩ := hc
    have he : s + 1 + (e - s - 1) = e := by omega
    simp only [h, Nat.add_sub_cancel, he]
    exact ⟨by omega, by omega, by omega, hopen, hclose, hkey, hfirst, by omega⟩

/-- Settles O33: one rule of TAGEXT for each outcome of the region check; writing TAG leaves the other bits of STATUS, and with
OPC 0x05 no other command exists. -/
theorem tagextFindsTheEffectiveKey : Obligations.TagextFindsTheEffectiveKey := by
  have hword : decode 0x05000000#32 = .ok .tagext := by decide
  have honly : ∀ j, opcOf j = opcOf .tagext → j = .tagext := fun j => by cases j <;> simp [opcOf]
  refine ⟨fun s xs hrun hkey => ?key, fun s => exec_of_lenNegative rfl, fun s k => exec_of_firstGap rfl, hword,
    fun w => raisesIllegal_of_ne hword honly, ?corners⟩
  case key =>
    have hoff : (tagExtract xs).off ≤ xs.length := le_of_add_le_left (tagExtract_off_add_elen_le xs)
    refine ⟨statusWithTag s.status (tagExtract xs).tag, exec_tagext_of_holdsKey hrun hkey, statusTag_withTag _ _,
      fun j hj => ?others, hoff, hkey.length_lt⟩
    case others => rw [statusWithTag_getLsbD, if_neg hj]
  case corners => decide

end Sys2Proof.Machine
end

section
/-! SUPPORT. The slot reducer as a remainder and as the low bits of the checksum, SLOTRED in a running core, and the effective
key as a key that itself stands in memory, at ADDR + EKOFF with length EKLEN (43_slot.md R140 to R144). -/

namespace Sys2Proof.Machine

/-! ## The reducer -/

theorem slotReduce_lt {n : Nat} (hn : 1 ≤ n) (c : Half) : slotReduce n c < n :=
  Nat.mod_lt _ hn

/-- The remainder by 2^14 is the low 14 bits (43_slot.md R140). -/
theorem slotReduce_nslots_eq_low_bits (c : Half) : slotReduce Config.nslots c = (c.extractLsb' 0 14).toNat := by
  rw [BitVec.extractLsb'_toNat, Nat.shiftRight_zero]
  rfl

/-- RESULT holds the slot unchanged: it fits in 32 bits. -/
@[simp] theorem slotWord_toNat (c : Half) : (slotWord c).toNat = slotReduce Config.nslots c := by
  have hlt : slotReduce Config.nslots c < 16384 := slotReduce_lt (by decide) c
  exact Nat.mod_eq_of_lt (hlt.trans (by decide))

theorem slotWord_toNat_le (c : Half) : (slotWord c).toNat ≤ Config.nslots - 1 := by
  rw [slotWord_toNat]
  exact Nat.le_sub_one_of_lt (slotReduce_lt (by decide) c)

/-- SLOTRED (43_slot.md R141). -/
theorem exec_slotred_of_running {s : State} (hrun : s.halted = false) :
    exec .slotred s = .next (s.writeResult (slotWord s.crc)) :=
  State.perform_of_running hrun _

/-! ## The effective key in memory -/

theorem effectiveKey_length (xs : List Byte) : (effectiveKey xs).length = (tagExtract xs).elen := by
  have hspan := tagExtract_off_add_elen_le xs
  rw [effectiveKey, List.length_take, List.length_drop]
  omega

/-- A byte of the effective key stands at its offset above ADDR + EKOFF. -/
theorem State.HoldsKey.byte?_effectiveKey {s : State} {xs : List Byte} (hkey : s.HoldsKey xs) {k : Nat}
    (hk : k < (effectiveKey xs).length) :
    s.mem.byte? (s.addr.toNat + (tagExtract xs).off + k) = some (effectiveKey xs)[k] := by
  obtain ⟨-, -, hbytes⟩ := hkey
  have hspan := tagExtract_off_add_elen_le xs
  have hlen := effectiveKey_length xs
  rw [Nat.add_assoc, hbytes _ (by omega)]
  simp [effectiveKey]

/-- An address with a byte is that of a word, so ADDR plus the offset of a byte of a key does not wrap. -/
theorem toNat_add_ofNat_of_byte? {m : Memory} {a : Word} {k j : Nat} {b : Byte}
    (h : m.byte? (a.toNat + k + j) = some b) : (a + BitVec.ofNat 32 k).toNat = a.toNat + k := by
  have hlt : ¬ 2 ^ 32 ≤ a.toNat + k + j := fun hge => by simp [Memory.byte?_of_ge m hge] at h
  rw [BitVec.toNat_add, BitVec.toNat_ofNat]
  omega

/-- A length below 2^31 is read back from LEN as it is, and is not negative (10_state.md R26). -/
theorem State.lenNegative_eq_false_of_len {s : State} {n : Nat} (hn : n < 2 ^ 31) (hlen : s.len = BitVec.ofNat 32 n) :
    s.lenNegative = false := by
  rw [State.lenNegative, hlen, BitVec.getLsbD_ofNat, Nat.testBit_lt_two_pow hn, Bool.and_false]

theorem State.keyLen_of_len {s : State} {n : Nat} (hn : n < 2 ^ 31) (hlen : s.len = BitVec.ofNat 32 n) :
    s.keyLen = n := by
  rw [State.keyLen, hlen, BitVec.extractLsb'_toNat, BitVec.toNat_ofNat, Nat.shiftRight_zero]
  omega

/-- Where a key stands in memory its effective key stands at ADDR + EKOFF with length EKLEN (43_slot.md R144). -/
theorem State.HoldsKey.holdsKey_effectiveKey {s : State} {xs : List Byte} (hkey : s.HoldsKey xs) :
    ({ s with addr := s.addr + BitVec.ofNat 32 (tagExtract xs).off
              len := BitVec.ofNat 32 (tagExtract xs).elen } : State).HoldsKey (effectiveKey xs) := by
  have hspan := tagExtract_off_add_elen_le xs
  have hshort : (tagExtract xs).elen < 2 ^ 31 := by
    have hxs := hkey.length_lt
    omega
  refine ⟨State.lenNegative_eq_false_of_len hshort rfl, ?length, fun k hk => ?byte⟩
  case length => rw [State.keyLen_of_len hshort rfl, effectiveKey_length]
  case byte =>
    have hbyte := hkey.byte?_effectiveKey hk
    rw [toNat_add_ofNat_of_byte? hbyte]
    exact hbyte

/-- After TAGEXT, with ADDR and LEN moved as the host sequence moves them, the effective key is the key (43_slot.md R144). -/
theorem State.HoldsKey.effectiveKey_after_tagext {s u : State} {xs : List Byte} (hkey : s.HoldsKey xs)
    (hrun : s.halted = false) (hu : exec .tagext s = .next u) :
    ({ u with addr := u.addr + u.ekoff, len := u.eklen } : State).HoldsKey (effectiveKey xs) := by
  obtain rfl : _ = u := Host.Outcome.next.inj ((exec_tagext_of_holdsKey hrun hkey).symm.trans hu)
  exact hkey.holdsKey_effectiveKey

end Sys2Proof.Machine
end

section
/-! The statements about the modulo slot reducer (43_slot.md R140 to R144). -/

namespace Sys2Proof.Machine

/-- Settles O48: the remainder by 2^14 is the low 14 bits. -/
theorem slotReduceIsTheRemainder : Obligations.SlotReduceIsTheRemainder :=
  ⟨fun _ c hn _ => ⟨rfl, Nat.le_sub_one_of_lt (slotReduce_lt hn c)⟩, rfl, by decide,
    fun c => ⟨slotReduce_nslots_eq_low_bits c, Nat.le_sub_one_of_lt (slotReduce_lt (by decide) c)⟩⟩

/-- Settles O34: SLOTRED writes the slot of CRC, and with OPC 0x06 no other command exists. -/
theorem slotredReducesTheRegister : Obligations.SlotredReducesTheRegister := by
  have hword : decode 0x06000000#32 = .ok .slotred := by decide
  have honly : ∀ j, opcOf j = opcOf .slotred → j = .slotred := fun j => by cases j <;> simp [opcOf]
  exact ⟨fun s hrun => exec_slotred_of_running hrun, by decide, by decide, by decide, by decide, by decide, by decide,
    by decide, fun c => rfl, hword, fun w => raisesIllegal_of_ne hword honly⟩

/-- Settles O35: one rule of KEYSLOT for each outcome of the region check; LEN = 0 is the empty key, writing TAG leaves the
other bits of STATUS, and with OPC 0x07 no other command exists. -/
theorem keyslotOfTheKey : Obligations.KeyslotOfTheKey := by
  have hword : decode 0x07000000#32 = .ok .keyslot := by decide
  have honly : ∀ j, opcOf j = opcOf .keyslot → j = .keyslot := fun j => by cases j <;> simp [opcOf]
  refine ⟨fun s xs hrun hkey => ?key, fun s => exec_of_lenNegative rfl, fun s k => exec_of_firstGap rfl,
    fun s hrun hlen => ?empty, ?braces, ?slotBraces, ?slotAfterBraces, ?slotBar, ?tagFoo, ?foo, ?slotFoo,
    hword, fun w => raisesIllegal_of_ne hword honly⟩
  case key =>
    refine ⟨statusWithTag s.status (tagExtract xs).tag, exec_keyslot_of_holdsKey hrun hkey, statusTag_withTag _ _,
      fun j hj => ?others⟩
    case others => rw [statusWithTag_getLsbD, if_neg hj]
  case empty =>
    exact ⟨statusWithTag s.status false, exec_keyslot_of_holdsKey hrun (State.holdsKey_nil hlen), statusTag_withTag _ _⟩
  case braces | slotBraces | slotAfterBraces | slotBar | tagFoo | foo | slotFoo => decide +kernel

/-- Settles O49: RESULT is a remainder by NSLOTS after both commands. -/
theorem slotsAreInRange : Obligations.SlotsAreInRange :=
  ⟨rfl, fun _ hrun => ⟨_, exec_slotred_of_running hrun, slotWord_toNat_le _⟩,
    fun _ _ hrun hkey => ⟨_, exec_keyslot_of_holdsKey hrun hkey, slotWord_toNat_le _⟩⟩

/-- Settles O50: the effective key stands at ADDR + EKOFF with length EKLEN, so CHKSUM there leaves in CRC what KEYSLOT leaves,
and SLOTRED reduces it alike. -/
theorem keyslotIsTagextChksumSlotred : Obligations.KeyslotIsTagextChksumSlotred := by
  refine ⟨?fooBarBaz, ?bar, ?quxBarQuux, ?braces, ?crcBraces, ?noBraces, ?crcNoBraces, fun xs => rfl,
    fun s xs hrun hkey => ?sequence⟩
  case fooBarBaz | bar | quxBarQuux | braces | crcBraces | noBraces | crcNoBraces => decide +kernel
  case sequence =>
    obtain ⟨u, htagext, hlive⟩ := exec_of_holdsKey (i := .tagext) rfl hrun hkey
    exact ⟨_, u, _, _, exec_keyslot_of_holdsKey hrun hkey, htagext,
      exec_chksum_of_holdsKey hlive (hkey.effectiveKey_after_tagext hrun htagext), exec_slotred_of_running hlive,
      rfl, rfl, rfl⟩

end Sys2Proof.Machine
end

section
/-! SUPPORT. What may change the fault registers, said once: the faults of 60_exceptions.md R150 as conditions on a memory
command and on an access, and for a command, an access and a move that it raises one of them or leaves FAULT, FCAUSE and
FINFO as they were. -/

namespace Sys2Proof.Machine

/-! ## A recorded fault -/

@[simp] theorem State.faulted_status (s : State) (c : FaultCause) (v : Word) :
    (s.faulted c v).status = statusWithFault s.status (causeCode c) := rfl
@[simp] theorem State.faulted_finfo (s : State) (c : FaultCause) (v : Word) : (s.faulted c v).finfo = v := rfl
@[simp] theorem State.faulted_halted (s : State) (c : FaultCause) (v : Word) : (s.faulted c v).halted = true := by
  simp [State.halted]

/-- FAULT, FCAUSE and FINFO are in `t` what they are in `s`: no fault was recorded between the two. -/
structure State.SameFault (s t : State) : Prop where
  halted : t.halted = s.halted
  cause : statusCause t.status = statusCause s.status
  finfo : t.finfo = s.finfo

/-- FAULT, FCAUSE and FINFO are in `t` what raising the cause in a running core leaves (60_exceptions.md R151). -/
structure State.Records (t : State) (c : FaultCause) (v : Word) : Prop where
  halted : t.halted = true
  cause : statusCause t.status = causeCode c
  finfo : t.finfo = v

theorem State.SameFault.refl (s : State) : s.SameFault s := ⟨rfl, rfl, rfl⟩

theorem State.faulted_records (s : State) (c : FaultCause) (v : Word) : (s.faulted c v).Records c v :=
  ⟨s.faulted_halted c v, statusCause_withFault _ _, rfl⟩

/-! ## Commands -/

/-- The faults of a memory command in `s`, each with the FINFO it records (60_exceptions.md R150, the rows LEN_NEGATIVE and
REGION). -/
inductive State.KeyFault (s : State) : FaultCause → Word → Prop
  | lenNegative (hneg : s.lenNegative = true) : s.KeyFault .lenNegative s.len
  | region {k : Nat} (hgap : s.FirstGap k) : s.KeyFault .region (BitVec.ofNat 32 k)

/-- A command leaves the fault registers as they were, or it is a memory command that takes one of its faults and does nothing
else (60_exceptions.md R150, R151). -/
theorem exec_sameFault_or_keyFault {i : Instr} {s t : State} (h : exec i s = .next t) :
    s.SameFault t ∨ s.halted = false ∧ readsKey i = true ∧ ∃ c v, s.KeyFault c v ∧ t = s.faulted c v := by
  obtain ⟨-, rfl⟩ | ⟨hrun, hi, hneg, rfl⟩ | ⟨hrun, hi, k, hgap, rfl⟩ | ⟨-, k, -, rfl⟩ | ⟨-, -, rfl⟩ | ⟨-, b, -, rfl⟩ |
    ⟨-, -, rfl⟩ | ⟨-, xs, -, ⟨-, rfl⟩ | ⟨-, rfl⟩ | ⟨-, rfl⟩⟩ := exec_cases h
  case inr.inl => exact .inr ⟨hrun, hi, _, _, .lenNegative hneg, rfl⟩
  case inr.inr.inl => exact .inr ⟨hrun, hi, _, _, .region hgap, rfl⟩
  all_goals exact .inl (by constructor <;> simp [State.writeTagOf])

/-! ## Accesses -/

/-- The faults of an access in `s`, each with the FINFO it records (60_exceptions.md R150, the whole table). -/
inductive State.AccessFault (s : State) : Access → FaultCause → Word → Prop
  | bus {a : Access} (hill : a.target = none) : s.AccessFault a .bus (a.offset.setWidth 32)
  | illegalCmd {w : Word} (hd : ∃ e, decode w = .error e) : s.AccessFault (.wr 0x00#6 4 w) .illegalCmd w
  | key {w : Word} {i : Instr} {c : FaultCause} {v : Word} (hd : decode w = .ok i) (hi : readsKey i = true)
      (hfault : s.KeyFault c v) : s.AccessFault (.wr 0x00#6 4 w) c v

/-- An illegal access raises BUS with its offset; beside that it can only return a value (10_state.md R23). -/
theorem State.exists_illegalAccess_eq (s : State) (a : Access) :
    ∃ vs, s.illegalAccess a = { s.raise .bus (a.offset.setWidth 32) with reads := vs } := by
  cases a <;> exact ⟨_, rfl⟩

theorem State.illegalAccess_records {s : State} (hrun : s.halted = false) (a : Access) :
    (s.illegalAccess a).Records .bus (a.offset.setWidth 32) := by
  obtain ⟨vs, hvs⟩ := s.exists_illegalAccess_eq a
  rw [hvs, State.raise_eq_faulted hrun]
  exact ⟨statusFault_withFault _ _, statusCause_withFault _ _, rfl⟩

theorem State.illegalAccess_sameFault {s : State} (hhalt : s.halted = true) (a : Access) :
    s.SameFault (s.illegalAccess a) := by
  obtain ⟨vs, hvs⟩ := s.exists_illegalAccess_eq a
  rw [hvs, State.raise_of_halted hhalt]
  exact ⟨rfl, rfl, rfl⟩

/-- WR of a writable register at its offset is the write of that register (10_state.md R23). -/
theorem performAccess_wr_offsetOf {r : Reg} (hr : r.writable = true) (s : State) (w : Word) :
    performAccess s (.wr (offsetOf r) 4 w) = writeReg s w r :=
  performAccess_wr ((Access.wr_target_eq_some_iff _ 4 w r).mpr ⟨rfl, rfl, r.writable_iff.mp hr⟩) s

/-- The CMD write of a word reaches the command decoder (10_state.md R33). -/
theorem performAccess_cmd (s : State) (w : Word) : performAccess s (.wr 0x00#6 4 w) = issue s w :=
  performAccess_wr_offsetOf (r := .cmd) rfl s w

theorem performAccess_cmd_of_halted {s : State} (hhalt : s.halted = true) (w : Word) :
    performAccess s (.wr 0x00#6 4 w) = .next s := by
  simp [performAccess_cmd, issue, hhalt]

theorem performAccess_cmd_of_decode {s : State} {w : Word} {i : Instr} (hrun : s.halted = false)
    (hd : decode w = .ok i) : performAccess s (.wr 0x00#6 4 w) = exec i s := by
  simp [performAccess_cmd, issue, hrun, hd]

/-- An access leaves the fault registers as they were, or it was made while FAULT = 0 and records one of its faults
(60_exceptions.md R150, R152). -/
theorem performAccess_sameFault_or_records {s t : State} {a : Access} (h : performAccess s a = .next t) :
    s.SameFault t ∨ s.halted = false ∧ ∃ c v, s.AccessFault a c v ∧ t.Records c v := by
  obtain ⟨hill, ha⟩ | ⟨o, r, -, -, -, ha⟩ | ⟨w, rfl, ha⟩ | ⟨w, -, ha⟩ | ⟨w, -, ha⟩ := performAccess_cases s a
  case inl =>
    obtain rfl := Host.Outcome.next.inj (ha.symm.trans h)
    cases hhalt : s.halted with
    | true => exact .inl (s.illegalAccess_sameFault hhalt a)
    | false => exact .inr ⟨rfl, _, _, .bus hill, s.illegalAccess_records hhalt a⟩
  case inr.inr.inl =>
    have hissue := ha.symm.trans h
    obtain ⟨-, hi⟩ | ⟨hrun, hd, hi⟩ | ⟨hrun, i, hd, hi⟩ := issue_cases s w
    · obtain rfl := Host.Outcome.next.inj (hi.symm.trans hissue)
      exact .inl (.refl s)
    · obtain rfl := Host.Outcome.next.inj (hi.symm.trans hissue)
      rw [State.raise_eq_faulted hrun]
      exact .inr ⟨hrun, _, _, .illegalCmd hd, s.faulted_records _ _⟩
    · obtain hsame | ⟨-, hkey, c, v, hfault, rfl⟩ := exec_sameFault_or_keyFault (hi.symm.trans hissue)
      · exact .inl hsame
      · exact .inr ⟨hrun, c, v, .key hd hkey hfault, s.faulted_records c v⟩
  all_goals
    obtain rfl := Host.Outcome.next.inj (ha.symm.trans h)
    exact .inl ⟨rfl, rfl, rfl⟩

/-! ## Moves -/

/-- A move other than RESET, made while FAULT = 1, leaves the fault registers as they were (60_exceptions.md R152). -/
theorem performEvent_sameFault {s t : State} {e : Event} (hhalt : s.halted = true) (he : e ≠ .reset)
    (h : performEvent s e = .next t) : s.SameFault t := by
  obtain ⟨a, during, u, -, -, hu, rfl⟩ | ⟨hreset, -⟩ | ⟨cells, -, rfl⟩ := performEvent_cases h
  · obtain ⟨hhalted, hcause, hinfo⟩ | ⟨hrun, -⟩ := performAccess_sameFault_or_records hu
    · exact ⟨hhalted, hcause, hinfo⟩
    · simp [hhalt] at hrun
  · exact absurd hreset he
  · exact ⟨rfl, rfl, rfl⟩

end Sys2Proof.Machine
end

section
/-! The statements about faults, the halt and their priority (60_exceptions.md R150 to R154). -/

namespace Sys2Proof.Machine

/-- Settles O21: raising while halted and while running are the two rules of `State.raise`, and a command that halts the core
took a fault of the region check, which is a raise. -/
theorem raiseRecordsTheFirstFault : Obligations.RaiseRecordsTheFirstFault := by
  refine ⟨fun s c v hhalt => State.raise_of_halted hhalt c v, fun s c v hrun => ?raise, fun i s t h hrun hhalt => ?command⟩
  case raise =>
    exact ⟨_, State.raise_of_running hrun c v, statusFault_withFault _ _, statusCause_withFault _ _,
      statusTag_withFault _ _, statusReserved_withFault _ _⟩
  case command =>
    obtain hsame | ⟨-, -, c, v, -, rfl⟩ := exec_sameFault_or_keyFault h
    · simp [hsame.halted, hrun] at hhalt
    · exact ⟨rfl, statusTag_withFault _ _⟩

/-- Settles O22: an access that halts the core records a fault of the table (`performAccess_sameFault_or_records`), one that
does not leaves the fault registers, and each condition of the table has its rule. -/
theorem faultsAreThoseOfTheTable : Obligations.FaultsAreThoseOfTheTable := by
  refine ⟨⟨rfl, rfl, rfl, rfl⟩, fun s t a hrun h hhalt => ?only, fun s a hrun hill => ?bus,
    fun w => raisesIllegal_of_decode, fun s i hrun hi => ?key, fun s t i hi h => ?none, by decide,
    fun s t a hrun h hlive => ?kept⟩
  case only =>
    obtain hsame | ⟨-, c, v, hfault, hrec⟩ := performAccess_sameFault_or_records h
    · simp [hsame.halted, hrun] at hhalt
    obtain ⟨-, hcause, hinfo⟩ := hrec
    cases hfault with
    | bus hill => exact .inl ⟨hill, hcause, hinfo⟩
    | illegalCmd hd => exact .inr ⟨_, rfl, .inl ⟨hd, hcause, hinfo⟩⟩
    | key hd hi hkey =>
      refine .inr ⟨_, rfl, .inr ⟨_, hd, hi, ?_⟩⟩
      cases hkey with
      | lenNegative hneg => exact .inl ⟨hneg, hcause, hinfo⟩
      | region hgap => exact .inr ⟨_, hgap, hcause, hinfo⟩
  case bus =>
    obtain ⟨hhalt, hcause, hinfo⟩ := s.illegalAccess_records hrun a
    exact ⟨_, performAccess_illegal hill s, hhalt, hcause, hinfo⟩
  case key => exact ⟨exec_of_lenNegative hi hrun, fun k => exec_of_firstGap hi hrun⟩
  case none =>
    obtain hsame | ⟨-, hkey, -⟩ := exec_sameFault_or_keyFault h
    · exact hsame.halted
    · simp [hi] at hkey
  case kept =>
    obtain ⟨-, hcause, hinfo⟩ | ⟨-, c, v, -, hrec⟩ := performAccess_sameFault_or_records h
    · exact ⟨hcause, hinfo⟩
    · simp [hrec.halted] at hlive

/-- Settles O23: a halted core keeps its fault over every move but RESET, and an illegal access raises a fault that is not
recorded. -/
theorem firstFaultIsKept : Obligations.FirstFaultIsKept := by
  refine ⟨fun s t e hhalt he h => ?kept, fun s o n w hhalt hill => ?wr, fun s o n hhalt hill => ?rd⟩
  case kept =>
    obtain ⟨hhalted, hcause, hinfo⟩ := performEvent_sameFault hhalt he h
    exact ⟨hhalted.trans hhalt, hcause, hinfo⟩
  case wr => rw [performAccess_illegal hill, State.illegalAccess, State.raise_of_halted hhalt]
  case rd => rw [performAccess_illegal hill, State.illegalAccess_rd, if_pos hhalt]

/-- Settles O24: commands are ignored in a halted core, the rules of legal reads and writes do not depend on FAULT, and a move
other than RESET keeps it. -/
theorem haltedCoreIgnoresCommands : Obligations.HaltedCoreIgnoresCommands := by
  intro s hhalt
  refine ⟨performAccess_cmd_of_halted hhalt, exec_of_halted hhalt, fun r hr => ?read,
    performAccess_wr_offsetOf (r := .addr) rfl s, performAccess_wr_offsetOf (r := .len) rfl s, fun e t h hlive => ?ends⟩
  case read => exact performAccess_rd ((Access.rd_target_eq_some_iff _ 4 r).mpr ⟨rfl, rfl, hr⟩) s
  case ends =>
    by_contra he
    obtain ⟨hhalted, -, -⟩ := performEvent_sameFault hhalt he h
    simp [hhalted, hhalt] at hlive

/-- Settles O26: each clause is the rule of the first check that applies; the checks before it are its hypotheses. -/
theorem faultPriority : Obligations.FaultPriority := by
  refine ⟨fun s o n w hrun hill => ?busWr, fun s o n hrun hill => ?busRd, fun n w hn => ?size,
    fun s w hhalt => performAccess_cmd_of_halted hhalt w, fun s w hrun hd => raisesIllegal_of_decode hd s hrun,
    fun s w i hrun hd hi => ?key⟩
  case busWr => rw [performAccess_illegal hill, State.illegalAccess, State.raise_eq_faulted hrun]
  case busRd => rw [performAccess_illegal hill, State.illegalAccess_rd, if_neg (by simp [hrun])]
  case size =>
    refine Option.eq_none_iff_forall_ne_some.mpr fun r hr => ?_
    obtain ⟨hsize, -, -⟩ := (Access.wr_target_eq_some_iff _ n w r).mp hr
    exact hn hsize
  case key =>
    rw [performAccess_cmd_of_decode hrun hd]
    exact ⟨exec_of_lenNegative hi hrun, fun k => exec_of_firstGap hi hrun⟩

end Sys2Proof.Machine
end

section
/-! The statement about RESET (70_reset_and_hazards.md R180). -/

namespace Sys2Proof.Machine

/-- Settles O28: RESET answers `State.resetCore`, a running core whose STATUS is 0, so TBLRD completes on it and returns the
entries of the table of every state; that a fault ends by RESET alone is the end of the halt in O24. -/
theorem resetClearsEveryRegister : Obligations.ResetClearsEveryRegister := by
  refine ⟨fun s => ⟨s.resetCore, rfl, rfl, rfl, rfl, rfl, rfl, rfl, rfl, rfl, s.resetCore_halted, ?tag, ?cause, ?nslots,
    ?table⟩, fun s t e h hhalt hlive => ?ends⟩
  case tag => simp [statusTag]
  case cause => simp [statusCause]
  case nslots => exact (State.readReg_nslots _).trans (State.readReg_nslots s).symm
  case table => exact fun k => exec_tblrd_of_running k s.resetCore_halted
  case ends =>
    obtain ⟨-, -, -, -, -, hends⟩ := haltedCoreIgnoresCommands s hhalt
    exact hends e t h hlive

end Sys2Proof.Machine
end

section
/-! SUPPORT. The encoder in the terms of the decoder: the fields of a command's word (30_encoding.md R70, R79). -/

namespace Sys2Proof.Machine

/-- OPC ends above bit 7, so IMM8 of an assembled word is the operand byte (30_encoding.md R70). -/
theorem fieldImm8_assembled (o imm : Byte) : fieldImm8 ((o.setWidth 32 <<< 24) ||| imm.setWidth 32) = imm := by
  refine BitVec.eq_of_getLsbD_eq fun j hj => ?_
  have hlow : j < 24 := by omega
  have hin : j < 32 := by omega
  simp [fieldImm8, hj, hlow, hin]

/-- Encoding a command and decoding the word gives the command back (30_encoding.md R75, R79). -/
theorem decode_encode (i : Instr) : decode (encode i) = .ok i := by
  obtain ⟨hrsv, hopc⟩ := Laws.wordFields_of (opcOf i) (imm8Of i)
  exact (decode_eq_ok_iff _ i).mpr ⟨hopc, hrsv, fieldImm8_assembled _ _⟩

end Sys2Proof.Machine
end

section
/-! The statement about the encoding round trip (30_encoding.md sections 1, 3 and 6). -/

namespace Sys2Proof.Machine

/-- Settles O1: the encoder puts each field of a command where the decoder reads it, and no two words decode to one command. -/
theorem decodeAndEncodeAgree : Obligations.DecodeAndEncodeAgree :=
  ⟨decode_encode, fun _ i => eq_of_decode_eq (decode_encode i)⟩

end Sys2Proof.Machine
end

section
/-! SUPPORT. What each kind of register may change by, said once for a command, an access, a move and a step: ADDR and LEN,
the result registers, the reserved bits of STATUS, key memory and the moves to come. -/

namespace Sys2Proof.Machine

/-! ## Commands -/

/-- What no command writes is in `t` what it is in `s`: the host's registers, the reserved bits of STATUS, key memory, the moves
to come and the values read (10_state.md section 6). -/
structure State.SameSurroundings (s t : State) : Prop where
  addr : t.addr = s.addr
  len : t.len = s.len
  reserved : t.status &&& ~~~statusFields = s.status &&& ~~~statusFields
  mem : t.mem = s.mem
  pending : t.pending = s.pending
  reads : t.reads = s.reads

/-- The registers in which commands leave results are in `t` what they are in `s` (10_state.md section 1). -/
structure State.SameResults (s t : State) : Prop where
  crc : t.crc = s.crc
  result : t.result = s.result
  ekoff : t.ekoff = s.ekoff
  eklen : t.eklen = s.eklen
  tag : statusTag t.status = statusTag s.status

theorem State.SameResults.refl (s : State) : s.SameResults s := ⟨rfl, rfl, rfl, rfl, rfl⟩

theorem State.SameResults.trans {s t u : State} (hst : s.SameResults t) (htu : t.SameResults u) : s.SameResults u where
  crc := htu.crc.trans hst.crc
  result := htu.result.trans hst.result
  ekoff := htu.ekoff.trans hst.ekoff
  eklen := htu.eklen.trans hst.eklen
  tag := htu.tag.trans hst.tag

theorem State.SameFault.trans {s t u : State} (hst : s.SameFault t) (htu : t.SameFault u) : s.SameFault u where
  halted := htu.halted.trans hst.halted
  cause := htu.cause.trans hst.cause
  finfo := htu.finfo.trans hst.finfo

@[simp] theorem State.faulted_reserved (s : State) (c : FaultCause) (v : Word) :
    (s.faulted c v).status &&& ~~~statusFields = s.status &&& ~~~statusFields :=
  statusReserved_withFault _ _

@[simp] theorem State.raise_reserved (s : State) (c : FaultCause) (v : Word) :
    (s.raise c v).status &&& ~~~statusFields = s.status &&& ~~~statusFields := by
  rw [State.raise_eq_ite]
  split
  · rfl
  · exact s.faulted_reserved c v

/-- A command changes none of its surroundings (10_state.md section 6; 20_memory.md R62). -/
theorem exec_sameSurroundings {i : Instr} {s t : State} (h : exec i s = .next t) : s.SameSurroundings t := by
  obtain ⟨-, rfl⟩ | ⟨-, -, -, rfl⟩ | ⟨-, -, k, -, rfl⟩ | ⟨-, k, -, rfl⟩ | ⟨-, -, rfl⟩ | ⟨-, b, -, rfl⟩ |
    ⟨-, -, rfl⟩ | ⟨-, xs, -, ⟨-, rfl⟩ | ⟨-, rfl⟩ | ⟨-, rfl⟩⟩ := exec_cases h
  case inr.inl | inr.inr.inl => exact ⟨rfl, rfl, State.faulted_reserved _ _ _, rfl, rfl, rfl⟩
  all_goals constructor <;> simp [State.writeTagOf]

/-! ## Accesses -/

/-- What an access can come to: at most a fault is raised and a value returned, or a running core performs a command, or ADDR or
LEN takes the word written (10_state.md R23 to R33). -/
theorem performAccess_effect {s t : State} {a : Access} (h : performAccess s a = .next t) :
    (∃ rs, t = { s with reads := rs } ∨ ∃ c v, t = { s.raise c v with reads := rs }) ∨
    (∃ w i, a = .wr 0x00#6 4 w ∧ s.halted = false ∧ decode w = .ok i ∧ exec i s = .next t) ∨
    (∃ w, a = .wr 0x04#6 4 w ∧ t = { s with addr := w }) ∨
    ∃ w, a = .wr 0x08#6 4 w ∧ t = { s with len := w } := by
  obtain ⟨-, ha⟩ | ⟨o, r, -, -, -, ha⟩ | ⟨w, rfl, ha⟩ | ⟨w, rfl, ha⟩ | ⟨w, rfl, ha⟩ := performAccess_cases s a
  case inr.inr.inl =>
    obtain ⟨-, hi⟩ | ⟨-, -, hi⟩ | ⟨hrun, i, hd, hi⟩ := issue_cases s w
    · obtain rfl := Host.Outcome.next.inj ((ha.trans hi).symm.trans h)
      exact .inl ⟨s.reads, .inl rfl⟩
    · obtain rfl := Host.Outcome.next.inj ((ha.trans hi).symm.trans h)
      exact .inl ⟨_, .inr ⟨_, _, rfl⟩⟩
    · exact .inr (.inl ⟨w, i, rfl, hrun, hd, (ha.trans hi).symm.trans h⟩)
  all_goals obtain rfl := Host.Outcome.next.inj (ha.symm.trans h)
  case inl =>
    obtain ⟨rs, hrs⟩ := s.exists_illegalAccess_eq a
    exact .inl ⟨rs, .inr ⟨_, _, hrs⟩⟩
  case inr.inl => exact .inl ⟨_, .inl rfl⟩
  case inr.inr.inr.inl => exact .inr (.inr (.inl ⟨w, rfl, rfl⟩))
  case inr.inr.inr.inr => exact .inr (.inr (.inr ⟨w, rfl, rfl⟩))

/-- No access changes the reserved bits of STATUS, key memory or the moves to come (10_state.md R30; 20_memory.md R62). -/
theorem performAccess_frame {s t : State} {a : Access} (h : performAccess s a = .next t) :
    t.status &&& ~~~statusFields = s.status &&& ~~~statusFields ∧ t.mem = s.mem ∧ t.pending = s.pending := by
  obtain ⟨rs, rfl | ⟨c, v, rfl⟩⟩ | ⟨w, i, -, -, -, hexec⟩ | ⟨w, -, rfl⟩ | ⟨w, -, rfl⟩ := performAccess_effect h
  case inl.inr => exact ⟨s.raise_reserved c v, s.raise_mem c v, s.raise_pending c v⟩
  case inr.inl =>
    have hsame := exec_sameSurroundings hexec
    exact ⟨hsame.reserved, hsame.mem, hsame.pending⟩
  all_goals exact ⟨rfl, rfl, rfl⟩

/-- Only an access that has a running core perform a command changes the result registers (10_state.md section 1). -/
theorem performAccess_sameResults_or_exec {s t : State} {a : Access} (h : performAccess s a = .next t) :
    s.SameResults t ∨
      ∃ w i, a = .wr 0x00#6 4 w ∧ s.halted = false ∧ decode w = .ok i ∧ exec i s = .next t := by
  obtain ⟨rs, rfl | ⟨c, v, rfl⟩⟩ | hexec | ⟨w, -, rfl⟩ | ⟨w, -, rfl⟩ := performAccess_effect h
  case inl.inr => exact .inl (by constructor <;> simp)
  case inr.inl => exact .inr hexec
  all_goals exact .inl ⟨rfl, rfl, rfl, rfl, rfl⟩

/-- Only its legal write changes ADDR, and only its legal write changes LEN (10_state.md R25, R26). -/
theorem performAccess_addr_len {s t : State} {a : Access} (h : performAccess s a = .next t) :
    (t.addr = s.addr ∨ ∃ w, a = .wr 0x04#6 4 w ∧ t.addr = w) ∧
      (t.len = s.len ∨ ∃ w, a = .wr 0x08#6 4 w ∧ t.len = w) := by
  obtain ⟨rs, rfl | ⟨c, v, rfl⟩⟩ | ⟨w, i, -, -, -, hexec⟩ | ⟨w, ha, rfl⟩ | ⟨w, ha, rfl⟩ := performAccess_effect h
  case inl.inl => exact ⟨.inl rfl, .inl rfl⟩
  case inl.inr => exact ⟨.inl (s.raise_addr c v), .inl (s.raise_len c v)⟩
  case inr.inl =>
    have hsame := exec_sameSurroundings hexec
    exact ⟨.inl hsame.addr, .inl hsame.len⟩
  case inr.inr.inl => exact ⟨.inr ⟨w, ha, rfl⟩, .inl rfl⟩
  case inr.inr.inr => exact ⟨.inl rfl, .inr ⟨w, ha, rfl⟩⟩

/-! ## Moves and steps -/

/-- A move other than RESET changes the result registers only by a command of a running core (10_state.md section 1). -/
theorem performEvent_sameResults_or_exec {s t : State} {e : Event} (h : performEvent s e = .next t) (he : e ≠ .reset) :
    s.SameResults t ∨ ∃ w d i, e = .access (.wr 0x00#6 4 w) d ∧ s.halted = false ∧ decode w = .ok i := by
  obtain ⟨a, during, u, rfl, -, hu, rfl⟩ | ⟨hreset, -⟩ | ⟨cells, -, rfl⟩ := performEvent_cases h
  · obtain hsame | ⟨w, i, rfl, hrun, hd, -⟩ := performAccess_sameResults_or_exec hu
    · obtain ⟨hcrc, hresult, hekoff, heklen, htag⟩ := hsame
      exact .inl ⟨hcrc, hresult, hekoff, heklen, htag⟩
    · exact .inr ⟨w, during, i, rfl, hrun, hd⟩
  · exact absurd hreset he
  · exact .inl ⟨rfl, rfl, rfl, rfl, rfl⟩

/-- A move leaves the moves after it as they are. -/
theorem performEvent_pending {s t : State} {e : Event} (h : performEvent s e = .next t) : t.pending = s.pending := by
  obtain ⟨a, during, u, -, -, hu, rfl⟩ | ⟨-, rfl⟩ | ⟨cells, -, rfl⟩ := performEvent_cases h
  · obtain ⟨-, -, hpending⟩ := performAccess_frame hu
    exact hpending
  · rfl
  · rfl

/-- A step takes the first of the moves to come. -/
theorem step_pending {s t : State} (h : step s = .next t) : t.pending = s.pending.tail := by
  obtain ⟨hnil, rfl⟩ | ⟨e, es, hcons, he⟩ := step_cases h
  · rw [hnil, List.tail_nil]
  · rw [hcons, List.tail_cons]
    exact performEvent_pending he

/-- A step of a halted core that is not RESET leaves the fault and the results as they were (60_exceptions.md R152, R153). -/
theorem step_keeps_halt {s t : State} (hhalt : s.halted = true) (hreset : .reset ∉ s.pending.take 1)
    (h : step s = .next t) : s.SameFault t ∧ s.SameResults t := by
  obtain ⟨-, rfl⟩ | ⟨e, es, hcons, he⟩ := step_cases h
  · exact ⟨.refl t, .refl t⟩
  have hne : e ≠ .reset := by
    rintro rfl
    simp [hcons] at hreset
  obtain ⟨hhalted, hcause, hinfo⟩ := performEvent_sameFault (s := s.setPending es) hhalt hne he
  obtain ⟨hcrc, hresult, hekoff, heklen, htag⟩ | ⟨-, -, -, -, hrun, -⟩ := performEvent_sameResults_or_exec he hne
  · exact ⟨⟨hhalted, hcause, hinfo⟩, ⟨hcrc, hresult, hekoff, heklen, htag⟩⟩
  · simp [hhalt] at hrun

/-! ## Runs -/

/-- A run that answers a next state begins with a step that does. -/
theorem exists_step_of_run_succ {s t : State} {k : Nat} (h : core.run (k + 1) s = .next t) :
    ∃ u, step s = .next u ∧ core.run k u = .next t := by
  cases hs : step s with
  | next u => exact ⟨u, rfl, (run_succ_of_next k hs).symm.trans h⟩
  | fault f => cases f
  | refused r => simp [run_succ_of_refused k hs] at h

/-- Without RESET a halt outlasts any run, and the results with it (60_exceptions.md R153). -/
theorem run_keeps_halt {k : Nat} {s t : State} (hhalt : s.halted = true) (hreset : .reset ∉ s.pending.take k)
    (h : core.run k s = .next t) : s.SameFault t ∧ s.SameResults t := by
  induction k generalizing s with
  | zero =>
    obtain rfl := Host.Outcome.next.inj h
    exact ⟨.refl _, .refl _⟩
  | succ k ih =>
    obtain ⟨u, hstep, hrun⟩ := exists_step_of_run_succ h
    have hhead : .reset ∉ s.pending.take 1 := fun hmem =>
      hreset (List.take_subset_take_left _ k.succ_pos hmem)
    have hrest : .reset ∉ u.pending.take k := fun hmem =>
      hreset (List.mem_of_mem_tail (by rwa [List.tail_take_eq_take_tail, Nat.add_sub_cancel, ← step_pending hstep]))
    obtain ⟨hfault, hresults⟩ := step_keeps_halt hhalt hhead hstep
    obtain ⟨hfault', hresults'⟩ := ih (hfault.halted.trans hhalt) hrest hrun
    exact ⟨hfault.trans hfault', hresults.trans hresults'⟩

end Sys2Proof.Machine
end

section
/-! The statements about what moves and runs leave unchanged (10_state.md section 1; 60_exceptions.md sections 2 and 4). -/

namespace Sys2Proof.Machine

/-- Settles O25: by induction on the run, each step of a halted core that is not RESET leaving the fault and the results. -/
theorem haltLastsUntilReset : Obligations.HaltLastsUntilReset := by
  intro k s t hhalt hreset h
  obtain ⟨⟨hhalted, hcause, hinfo⟩, ⟨hcrc, hresult, hekoff, heklen, htag⟩⟩ := run_keeps_halt hhalt hreset h
  exact ⟨hhalted.trans hhalt, hcause, hinfo, htag, hcrc, hresult, hekoff, heklen⟩

/-- Settles O13: commands leave ADDR and LEN, an access changes each by its legal write alone, and a platform move changes
neither. -/
theorem addrAndLenAreTheHosts : Obligations.AddrAndLenAreTheHosts := by
  refine ⟨fun i s t h => ⟨(exec_sameSurroundings h).addr, (exec_sameSurroundings h).len⟩, fun s t e h => ?moves⟩
  case moves =>
    obtain ⟨a, during, u, rfl, -, hu, rfl⟩ | ⟨rfl, -⟩ | ⟨cells, -, rfl⟩ := performEvent_cases h
    · obtain ⟨haddr, hlen⟩ := performAccess_addr_len hu
      refine ⟨haddr.imp_right fun ⟨w, ha, hw⟩ => ?_, hlen.imp_right fun ⟨w, ha, hw⟩ => ?_⟩
      all_goals exact .inr ⟨w, during, ha ▸ rfl, hw⟩
    · exact ⟨.inr (.inl rfl), .inr (.inl rfl)⟩
    · exact ⟨.inl rfl, .inl rfl⟩

/-- Settles O14: by `performEvent_sameResults_or_exec`, whose other case the hypothesis excludes. -/
theorem resultsAreTheCommands : Obligations.ResultsAreTheCommands := by
  intro s t e h he hnone
  obtain ⟨hcrc, hresult, hekoff, heklen, htag⟩ | hexec := performEvent_sameResults_or_exec h he
  · exact ⟨hcrc, hresult, hekoff, heklen, htag⟩
  · exact absurd hexec hnone

/-- Settles O15: an access leaves the fault registers or records a fault of a running core, and a platform move leaves them. -/
theorem faultRegistersAreTheFaultMechanisms : Obligations.FaultRegistersAreTheFaultMechanisms := by
  intro s t e h
  obtain ⟨a, during, u, -, -, hu, rfl⟩ | ⟨rfl, -⟩ | ⟨cells, -, rfl⟩ := performEvent_cases h
  · obtain ⟨hhalted, hcause, hinfo⟩ | ⟨hrun, c, v, -, hrec⟩ := performAccess_sameFault_or_records hu
    · exact .inl ⟨hhalted, hcause, hinfo⟩
    · exact .inr (.inr ⟨hrun, hrec.halted⟩)
  · exact .inr (.inl rfl)
  · exact .inl ⟨rfl, rfl, rfl⟩

/-- Settles O36: the surroundings are those of `exec_sameSurroundings`, the fault registers change only by a fault, and for the
rest each way a command can end names the registers it writes. -/
theorem commandsWriteOnlyTheirRegisters : Obligations.CommandsWriteOnlyTheirRegisters := by
  intro i s t h
  obtain ⟨haddr, hlen, hreserved, hmem, hpending, hreads⟩ := exec_sameSurroundings h
  refine ⟨⟨haddr, hlen, hpending, hreads, fun x => by rw [hmem], hreserved⟩, fun hlive => ?fault, ?registers⟩
  case fault =>
    obtain hsame | ⟨hrun, -, c, v, -, rfl⟩ := exec_sameFault_or_keyFault h
    · exact ⟨hsame.cause, hsame.finfo⟩
    · simp [hrun] at hlive
  case registers =>
    obtain ⟨-, rfl⟩ | ⟨hrun, hi, -, rfl⟩ | ⟨hrun, hi, k, -, rfl⟩ | ⟨-, k, rfl, rfl⟩ | ⟨-, rfl, rfl⟩ | ⟨-, b, rfl, rfl⟩ |
      ⟨-, rfl, rfl⟩ | ⟨-, xs, -, ⟨rfl, rfl⟩ | ⟨rfl, rfl⟩ | ⟨rfl, rfl⟩⟩ := exec_cases h
    case inr.inl | inr.inr.inl =>
      obtain rfl | rfl | rfl := (readsKey_iff i).mp hi
      · exact ⟨rfl, rfl, statusTag_withFault _ _, fun hlive => by simp [hrun] at hlive⟩
      · rfl
      · exact fun _ => ⟨rfl, rfl, rfl, rfl⟩
    · cases i <;> simp
    · exact ⟨rfl, rfl, rfl, rfl, rfl⟩
    · exact ⟨rfl, rfl, rfl, rfl⟩
    · exact ⟨rfl, rfl, rfl, rfl⟩
    · exact ⟨rfl, rfl, rfl, rfl, rfl⟩
    · exact ⟨rfl, rfl, rfl, fun _ => rfl⟩
    · rfl
    · exact fun hhalt => absurd (by simp [State.writeTagOf]) hhalt

end Sys2Proof.Machine
end

section
/-! SUPPORT. The invariant of the machine taken apart: the fault registers, RESULT and the span of the effective key, each kept
by every command and access, and the invariant put together for moves and steps. -/

namespace Sys2Proof.Machine

/-! ## The parts of the invariant -/

/-- FAULT = 1 exactly when a cause is recorded, with a FINFO that it can leave (60_exceptions.md R150). -/
structure State.FaultLegal (s : State) : Prop where
  recorded : statusFault s.status = false ↔ statusCause s.status = 0#4
  info : infoLegal (statusCause s.status) s.finfo = true

/-- EKOFF and EKLEN lie in a key of legal length, and TAG says whether they lie between braces (42_hashtag.md R132). -/
structure State.SpanLegal (s : State) : Prop where
  bound : s.ekoff.toNat + s.eklen.toNat < 2 ^ 31
  whole : statusTag s.status = false → s.ekoff = 0#32
  tagged : statusTag s.status = true → 1 ≤ s.ekoff.toNat ∧ 1 ≤ s.eklen.toNat

theorem State.inv_iff (s : State) : s.Inv ↔
    s.mem.wf ∧ s.status &&& ~~~statusFields = 0#32 ∧ s.FaultLegal ∧ s.result.toNat < 2 ^ 16 ∧ s.SpanLegal := by
  constructor
  · rintro ⟨hmem, hreserved, hrecorded, hinfo, hresult, hbound, hwhole, htagged⟩
    exact ⟨hmem, hreserved, ⟨hrecorded, hinfo⟩, hresult, ⟨hbound, hwhole, htagged⟩⟩
  · rintro ⟨hmem, hreserved, ⟨hrecorded, hinfo⟩, hresult, ⟨hbound, hwhole, htagged⟩⟩
    exact ⟨hmem, hreserved, hrecorded, hinfo, hresult, hbound, hwhole, htagged⟩

/-! ## The fault registers -/

/-- The words that raise ILLEGAL_CMD are those that the check of R76 refuses (30_encoding.md R76). -/
theorem exists_decode_eq_error_iff_wordLegal (w : Word) : (∃ e, decode w = .error e) ↔ wordLegal w = false := by
  have hopc : opcUnassigned w = true ↔ fieldOpc w = 0x00#8 ∨ 0x08#8 ≤ fieldOpc w := by
    simp [opcUnassigned, fieldOpc, BitVec.le_def, BitVec.toNat_eq]
  have hrsv : rsvNonzero w = true ↔ fieldRsv w ≠ 0#16 := by
    simp [rsvNonzero, fieldRsv]
  have himm : immNotAllowed w = true ↔ (fieldOpc w = 0x02#8 ∨ fieldOpc w = 0x04#8 ∨ fieldOpc w = 0x05#8 ∨
      fieldOpc w = 0x06#8 ∨ fieldOpc w = 0x07#8) ∧ fieldImm8 w ≠ 0#8 := by
    simp [immNotAllowed, fieldOpc, fieldImm8, BitVec.toNat_eq]
  rw [exists_decode_eq_error_iff_fields, ← himm, ← hrsv, ← or_assoc, ← hopc]
  simp only [wordLegal, Bool.not_eq_false', Bool.or_eq_true, or_assoc]

/-- A key has fewer than 2^31 bytes, so an offset in its region is at most 2^31 - 2 and FINFO holds it as it is
(10_state.md R26, R31). -/
theorem State.FirstGap.lt {s : State} {k : Nat} (hgap : s.FirstGap k) : k < 2 ^ 31 - 1 := by
  obtain ⟨-, hk, -⟩ := hgap
  have hlen : s.keyLen < 2 ^ 31 := (s.len.extractLsb' 0 31).isLt
  omega

theorem State.KeyFault.infoLegal {s : State} {c : FaultCause} {v : Word} (hfault : s.KeyFault c v) :
    infoLegal (causeCode c) v = true := by
  cases hfault with
  | lenNegative hneg => exact hneg
  | @region k hgap =>
    have hk := hgap.lt
    have hmod : k % 4294967296 = k := Nat.mod_eq_of_lt (by omega)
    simpa [Machine.infoLegal, causeCode, hmod] using hk

/-- Every fault of an access records a FINFO that its cause can leave (60_exceptions.md R150). -/
theorem State.AccessFault.infoLegal {s : State} {a : Access} {c : FaultCause} {v : Word}
    (hfault : s.AccessFault a c v) : infoLegal (causeCode c) v = true := by
  cases hfault with
  | bus =>
    have hoffset : a.offset.toNat < 2 ^ 6 := a.offset.isLt
    have hmod : a.offset.toNat % 4294967296 = a.offset.toNat := Nat.mod_eq_of_lt (by omega)
    simpa [Machine.infoLegal, causeCode, hmod] using hoffset
  | illegalCmd hd =>
    have hillegal := (exists_decode_eq_error_iff_wordLegal v).mp hd
    simp [Machine.infoLegal, causeCode, hillegal]
  | key _ _ hkey => exact hkey.infoLegal

theorem State.SameFault.faultLegal {s t : State} (hsame : s.SameFault t) (hs : s.FaultLegal) : t.FaultLegal := by
  obtain ⟨hhalted, hcause, hinfo⟩ := hsame
  obtain ⟨hrecorded, hlegal⟩ := hs
  have hfault : statusFault t.status = statusFault s.status := hhalted
  exact ⟨by rw [hfault, hcause, hrecorded], by rw [hcause, hinfo, hlegal]⟩

theorem State.Records.faultLegal {t : State} {c : FaultCause} {v : Word} (hrec : t.Records c v)
    (hv : infoLegal (causeCode c) v = true) : t.FaultLegal := by
  obtain ⟨hhalted, hcause, hinfo⟩ := hrec
  have hcode : causeCode c ≠ 0#4 := by cases c <;> decide
  have hfault : statusFault t.status = true := hhalted
  exact ⟨by simp [hfault, hcause, hcode], by rw [hcause, hinfo, hv]⟩

theorem performAccess_faultLegal {s t : State} {a : Access} (hs : s.FaultLegal) (h : performAccess s a = .next t) :
    t.FaultLegal := by
  obtain hsame | ⟨-, c, v, hfault, hrec⟩ := performAccess_sameFault_or_records h
  · exact hsame.faultLegal hs
  · exact hrec.faultLegal hfault.infoLegal

/-! ## RESULT -/

theorem half_setWidth_toNat_lt (c : Half) : (c.setWidth 32 : Word).toNat < 2 ^ 16 := by
  rw [BitVec.toNat_setWidth_of_le (by decide)]
  exact c.isLt

theorem slotWord_toNat_lt (c : Half) : (slotWord c).toNat < 2 ^ 16 :=
  (slotWord_toNat_le c).trans_lt (by decide)

/-- A 16-bit value has no bit above bit 15. -/
theorem extractLsb'_high_of_lt {v : Word} (hv : v.toNat < 2 ^ 16) : v.extractLsb' 16 16 = 0#16 := by
  refine BitVec.eq_of_toNat_eq ?_
  rw [BitVec.extractLsb'_toNat, Nat.shiftRight_eq_div_pow, Nat.div_eq_of_lt hv]
  rfl

/-- A command leaves a 16-bit RESULT, unless it was ignored or it faulted, and then it leaves RESULT as it was
(10_state.md R27). -/
theorem exec_result {i : Instr} {s t : State} (h : exec i s = .next t) :
    t.result.toNat < 2 ^ 16 ∨ t.result = s.result ∧ (s.halted = true ∨ t.halted = true) := by
  obtain ⟨hhalt, rfl⟩ | ⟨-, -, -, rfl⟩ | ⟨-, -, k, -, rfl⟩ | ⟨-, k, -, rfl⟩ | ⟨-, -, rfl⟩ | ⟨-, b, -, rfl⟩ |
    ⟨-, -, rfl⟩ | ⟨-, xs, -, ⟨-, rfl⟩ | ⟨-, rfl⟩ | ⟨-, rfl⟩⟩ := exec_cases h
  · exact .inr ⟨rfl, .inl hhalt⟩
  · exact .inr ⟨rfl, .inr (State.faulted_halted _ _ _)⟩
  · exact .inr ⟨rfl, .inr (State.faulted_halted _ _ _)⟩
  · exact .inl (half_setWidth_toNat_lt _)
  · exact .inl (half_setWidth_toNat_lt _)
  · exact .inl (half_setWidth_toNat_lt _)
  · exact .inl (slotWord_toNat_lt _)
  · exact .inl (half_setWidth_toNat_lt _)
  · rw [State.writeResult_result, setWidth_ofBool]
    exact .inl (by split <;> decide)
  · exact .inl (slotWord_toNat_lt _)

/-! ## The span of the effective key -/

/-- The registers of the effective key are in `t` those of the key `xs` (42_hashtag.md R131). -/
structure State.SpanOf (t : State) (xs : List Byte) : Prop where
  ekoff : t.ekoff = BitVec.ofNat 32 (tagExtract xs).off
  eklen : t.eklen = BitVec.ofNat 32 (tagExtract xs).elen
  tag : statusTag t.status = (tagExtract xs).tag

/-- EKOFF and EKLEN hold the span of a key as it is: its offset and length fit in 32 bits (10_state.md R28, R29). -/
theorem State.SpanOf.toNat {t : State} {xs : List Byte} (ht : t.SpanOf xs) (hlen : xs.length < 2 ^ 31) :
    t.ekoff.toNat = (tagExtract xs).off ∧ t.eklen.toNat = (tagExtract xs).elen := by
  have hspan := tagExtract_off_add_elen_le xs
  rw [ht.ekoff, ht.eklen, BitVec.toNat_ofNat, BitVec.toNat_ofNat]
  omega

theorem State.SpanOf.spanLegal {t : State} {xs : List Byte} (ht : t.SpanOf xs) (hlen : xs.length < 2 ^ 31) :
    t.SpanLegal := by
  obtain ⟨hoff, helen⟩ := ht.toNat hlen
  have hspan := tagExtract_off_add_elen_le xs
  refine ⟨by omega, fun htag => ?whole, fun htag => ?tagged⟩
  case whole => rw [ht.ekoff, tagExtract_of_tag_false (ht.tag.symm.trans htag)]
  case tagged =>
    obtain ⟨s, e, -, -, hlt, h⟩ := exists_braces_of_tag (ht.tag.symm.trans htag)
    simp only [hoff, helen, h]
    omega

/-- TAGEXT and KEYSLOT leave the span of the key in memory (42_hashtag.md R131; 43_slot.md R142). -/
theorem exec_spanOf {i : Instr} {s t : State} {xs : List Byte} (hi : i = .tagext ∨ i = .keyslot)
    (hrun : s.halted = false) (hkey : s.HoldsKey xs) (h : exec i s = .next t) : t.SpanOf xs := by
  obtain rfl | rfl := hi
  · obtain rfl := Host.Outcome.next.inj ((exec_tagext_of_holdsKey hrun hkey).symm.trans h)
    exact ⟨rfl, rfl, statusTag_withTag _ _⟩
  · obtain rfl := Host.Outcome.next.inj ((exec_keyslot_of_holdsKey hrun hkey).symm.trans h)
    exact ⟨rfl, rfl, statusTag_withTag _ _⟩

/-- A command leaves the span as it was, or it leaves the span of the key in memory. -/
theorem exec_span {i : Instr} {s t : State} (h : exec i s = .next t) :
    (t.ekoff = s.ekoff ∧ t.eklen = s.eklen ∧ statusTag t.status = statusTag s.status) ∨
      ∃ xs, s.HoldsKey xs ∧ t.SpanOf xs := by
  obtain ⟨-, rfl⟩ | ⟨-, -, -, rfl⟩ | ⟨-, -, k, -, rfl⟩ | ⟨-, k, -, rfl⟩ | ⟨-, -, rfl⟩ | ⟨-, b, -, rfl⟩ |
    ⟨-, -, rfl⟩ | ⟨hrun, xs, hkey, ⟨-, rfl⟩ | ⟨hi, rfl⟩ | ⟨hi, rfl⟩⟩ := exec_cases h
  any_goals exact .inl ⟨rfl, rfl, rfl⟩
  · exact .inl ⟨rfl, rfl, statusTag_withFault _ _⟩
  · exact .inl ⟨rfl, rfl, statusTag_withFault _ _⟩
  · exact .inr ⟨xs, hkey, exec_spanOf (.inl hi) hrun hkey h⟩
  · exact .inr ⟨xs, hkey, exec_spanOf (.inr hi) hrun hkey h⟩

theorem State.SpanLegal.congr {s t : State} (hs : s.SpanLegal) (hekoff : t.ekoff = s.ekoff) (heklen : t.eklen = s.eklen)
    (htag : statusTag t.status = statusTag s.status) : t.SpanLegal := by
  obtain ⟨hbound, hwhole, htagged⟩ := hs
  refine ⟨?_, ?_, ?_⟩
  all_goals simpa only [hekoff, heklen, htag]

theorem exec_spanLegal {i : Instr} {s t : State} (hs : s.SpanLegal) (h : exec i s = .next t) : t.SpanLegal := by
  obtain ⟨hekoff, heklen, htag⟩ | ⟨xs, hkey, hspan⟩ := exec_span h
  · exact hs.congr hekoff heklen htag
  · exact hspan.spanLegal hkey.length_lt

/-! ## The invariant -/

theorem State.Inv.mem_wf {s : State} (hs : s.Inv) : s.mem.wf := by
  obtain ⟨hmem, -⟩ := hs
  exact hmem

theorem State.Inv.setMem {s : State} (hs : s.Inv) {m : Memory} (hm : m.wf) : (s.setMem m).Inv := by
  obtain ⟨-, hrest⟩ := hs
  exact ⟨hm, hrest⟩

/-- The registers after RESET meet the invariant (10_state.md R37). -/
theorem State.resetCore_inv {s : State} (hmem : s.mem.wf) : s.resetCore.Inv := by
  refine (State.inv_iff _).mpr ⟨hmem, ?reserved, ⟨?recorded, ?info⟩, ?result, ⟨?bound, fun _ => rfl, ?tagged⟩⟩
  case reserved | recorded | info | result | bound | tagged => simp only [State.resetCore, State.reset]; decide

theorem performAccess_inv {s t : State} {a : Access} (hs : s.Inv) (h : performAccess s a = .next t) : t.Inv := by
  obtain ⟨hmem, hreserved, hfault, hresult, hspan⟩ := s.inv_iff.mp hs
  obtain ⟨hreserved', hmem', -⟩ := performAccess_frame h
  have hresults : t.result.toNat < 2 ^ 16 ∧ t.SpanLegal := by
    obtain hsame | ⟨w, i, -, -, -, hexec⟩ := performAccess_sameResults_or_exec h
    · exact ⟨hsame.result ▸ hresult, hspan.congr hsame.ekoff hsame.eklen hsame.tag⟩
    · refine ⟨?_, exec_spanLegal hspan hexec⟩
      obtain hlt | ⟨hsame, -⟩ := exec_result hexec
      · exact hlt
      · exact hsame ▸ hresult
  exact t.inv_iff.mpr ⟨hmem' ▸ hmem, hreserved'.trans hreserved, performAccess_faultLegal hfault h, hresults⟩

theorem performEvent_inv {s t : State} {e : Event} (hs : s.Inv) (h : performEvent s e = .next t) : t.Inv := by
  obtain ⟨a, during, u, -, -, hu, rfl⟩ | ⟨-, rfl⟩ | ⟨cells, -, rfl⟩ := performEvent_cases h
  · have hinv := performAccess_inv hs hu
    exact hinv.setMem (Memory.storeAll_wf hinv.mem_wf during)
  · exact State.resetCore_inv hs.mem_wf
  · exact hs.setMem (Memory.ofCells_wf cells)

end Sys2Proof.Machine
end

section
/-! The statements about the invariant and about the results of commands (10_state.md sections 3 and 7). -/

namespace Sys2Proof.Machine

/-- Settles O52: an idle step changes nothing, and a move keeps each part of the invariant. -/
theorem everyStepKeepsTheInvariant : Obligations.EveryStepKeepsTheInvariant := by
  intro s t hs h
  obtain ⟨-, rfl⟩ | ⟨e, es, -, he⟩ := step_cases h
  · exact hs
  · exact performEvent_inv (s := s.setPending es) hs he

/-- Settles O53: the reset state has the registers after RESET and an empty key memory. -/
theorem invariantHoldsAtReset : Obligations.InvariantHoldsAtReset :=
  State.resetCore_inv (s := State.reset) State.reset_mem_wf

/-- Settles O37: such a command was not ignored and did not fault, so it left a 16-bit RESULT. -/
theorem everyCommandLeavesASixteenBitResult : Obligations.EveryCommandLeavesASixteenBitResult := by
  intro i s t hrun h hlive
  obtain hlt | ⟨-, hhalt | hhalt⟩ := exec_result h
  · refine ⟨extractLsb'_high_of_lt hlt, ?_⟩
    rw [BitVec.toInt_eq_toNat_of_lt (by omega)]
    exact Int.natCast_nonneg _
  · simp [hrun] at hhalt
  · simp [hlive] at hhalt

/-- Settles O47: EKOFF and EKLEN are the span of the key, which lies in the key and whose bytes stand above ADDR. -/
theorem effectiveKeyLiesInTheKey : Obligations.EffectiveKeyLiesInTheKey := by
  intro i s t xs hi hrun hkey h
  obtain ⟨hoff, helen⟩ := (exec_spanOf hi hrun hkey h).toNat hkey.length_lt
  have hlen := effectiveKey_length xs
  rw [hoff, helen]
  refine ⟨?bound, hlen, fun k hk => ?byte⟩
  case bound =>
    obtain ⟨-, hxs, -⟩ := hkey
    exact hxs ▸ tagExtract_off_add_elen_le xs
  case byte =>
    have hin : k < (effectiveKey xs).length := by omega
    rw [hkey.byte?_effectiveKey hin, List.getElem?_eq_getElem hin]

end Sys2Proof.Machine
end

section
/-! SUPPORT. Key memory beside the core: what each address reads after a platform move, which addresses lie in the region of the
command in progress, and that a command sees no byte outside its region (20_memory.md R51 to R55, R62, R67). -/

namespace Sys2Proof.Machine

/-! ## What other moves leave in key memory -/

/-- What every address reads as after cells are written one after another: the byte of the last cell listed for it, or as
before. -/
theorem byte?_foldl_write (cells : List (Word × Byte)) (m : Memory) (x : Nat) :
    (cells.foldl (fun m c => Memory.write m c.1 c.2) m).byte? x =
      ((cells.reverse.find? (fun c => c.1.toNat == x)).map (·.2)).or (m.byte? x) := by
  induction cells generalizing m with
  | nil => rfl
  | cons c cells ih =>
    rw [List.foldl_cons, ih, Memory.byte?_write, List.reverse_cons, List.find?_append]
    by_cases hx : x = c.1.toNat
    · subst hx
      cases cells.reverse.find? (fun d => d.1.toNat == c.1.toNat) <;> simp
    · simp [hx, Ne.symm hx]

/-- What every address reads as in a memory the platform gives (20_memory.md R51). -/
theorem Memory.byte?_ofCells (cells : List (Word × Byte)) (x : Nat) :
    (Memory.ofCells cells).byte? x = (cells.reverse.find? (fun c => c.1.toNat == x)).map (·.2) := by
  have hempty : Memory.byte? [] x = none := by simp [Memory.byte?]
  rw [Memory.ofCells, byte?_foldl_write, hempty, Option.or_none]

/-! ## The region in progress -/

/-- An access issues a memory command exactly when it is the CMD write of one, while FAULT = 0 (20_memory.md R54). -/
theorem State.issuesMemoryCommand_iff (s : State) (a : Access) : s.issuesMemoryCommand a = true ↔
    (∃ w i, a = .wr 0x00#6 4 w ∧ decode w = .ok i ∧ readsKey i = true) ∧ s.halted = false := by
  cases a with
  | rd o n => simp [State.issuesMemoryCommand]
  | wr o n w =>
    have htarget : (Access.wr o n w).target = some .cmd ↔ n = 4 ∧ o = 0x00#6 := by
      simp [Access.wr_target_eq_some_iff, offsetOf]
    simp only [State.issuesMemoryCommand, Bool.and_eq_true, Bool.not_eq_true', beq_iff_eq, htarget, Access.wr.injEq]
    cases hd : decode w with
    | error e => simp [hd]
    | ok i =>
      constructor
      · rintro ⟨⟨⟨rfl, rfl⟩, hrun⟩, hi⟩
        exact ⟨⟨w, i, ⟨rfl, rfl, rfl⟩, hd, hi⟩, hrun⟩
      · rintro ⟨⟨v, j, ⟨rfl, rfl, rfl⟩, hj, hkey⟩, hrun⟩
        obtain rfl := Except.ok.inj (hd.symm.trans hj)
        exact ⟨⟨⟨rfl, rfl⟩, hrun⟩, hkey⟩

/-- The addresses in the region of the command in progress (20_memory.md R54, R67). -/
theorem State.inRegion_iff (s : State) (a : Access) (x : Word) : s.inRegion a x = true ↔
    (∃ w i, a = .wr 0x00#6 4 w ∧ decode w = .ok i ∧ readsKey i = true) ∧ s.halted = false ∧
      s.lenNegative = false ∧ s.addr.toNat ≤ x.toNat ∧ x.toNat < s.addr.toNat + s.keyLen := by
  simp only [State.inRegion, Bool.and_eq_true, State.issuesMemoryCommand_iff, Bool.not_eq_true', decide_eq_true_eq,
    and_assoc]

/-- A write of another agent in the region of the command in progress leaves the move without a meaning (20_memory.md R67). -/
theorem performEvent_regionWritten {s : State} {a : Access} {during : List (Word × Byte)}
    (hd : ∃ c ∈ during, s.inRegion a c.1 = true) :
    ∃ c ∈ during, s.inRegion a c.1 = true ∧ performEvent s (.access a during) = .refused (.regionWritten c.1) := by
  obtain ⟨c, hc⟩ := Option.isSome_iff_exists.mp (List.find?_isSome.mpr hd)
  have hin : s.inRegion a c.1 = true := by simpa using List.find?_some hc
  exact ⟨c, List.mem_of_find?_eq_some hc, hin, by simp only [performEvent, hc]⟩

/-! ## A command sees its region only -/

theorem State.SameRegion.holdsKey {s : State} {m : Memory} {xs : List Byte} (hm : s.SameRegion m) (hkey : s.HoldsKey xs) :
    (s.setMem m).HoldsKey xs := by
  obtain ⟨hneg, hlen, hbytes⟩ := hkey
  exact ⟨hneg, hlen, fun k hk => (hm k (hlen ▸ hk)).trans (hbytes k hk)⟩

theorem State.SameRegion.firstGap {s : State} {m : Memory} {k : Nat} (hm : s.SameRegion m) (hgap : s.FirstGap k) :
    (s.setMem m).FirstGap k := by
  obtain ⟨hneg, hk, hnone, hsome⟩ := hgap
  exact ⟨hneg, hk, (hm k hk).trans hnone, fun j hj =>
    (congrArg Option.isSome (hm j (hj.trans hk))).trans (hsome j hj)⟩

end Sys2Proof.Machine
end

section
/-! The statements about key memory (20_memory.md sections 1, 2 and 6). -/

namespace Sys2Proof.Machine

/-- Settles O16: commands and accesses leave key memory, and the other agents' writes leave each address they do not list. -/
theorem noCommandWritesKeyMemory : Obligations.NoCommandWritesKeyMemory := by
  have haccess : ∀ (s t : State) (a : Access), performAccess s a = .next t → ∀ x, t.mem.byte? x = s.mem.byte? x := by
    intro s t a h x
    obtain ⟨-, hmem, -⟩ := performAccess_frame h
    rw [hmem]
  refine ⟨fun i s t h x => by rw [(exec_sameSurroundings h).mem], haccess, fun s t e h x => ?moves⟩
  case moves =>
    obtain ⟨a, during, u, rfl, -, hu, rfl⟩ | ⟨-, rfl⟩ | ⟨cells, rfl, -⟩ := performEvent_cases h
    · by_cases hx : ∃ c ∈ during, c.1.toNat = x
      · exact .inr (.inr ⟨a, during, rfl, hx⟩)
      · have hother : ∀ c ∈ during, c.1.toNat ≠ x := fun c hc heq => hx ⟨c, hc, heq⟩
        exact .inl ((Memory.byte?_storeAll_of_not_mem during u.mem x hother).trans (haccess s u a hu x))
    · exact .inl rfl
    · exact .inr (.inl ⟨cells, rfl⟩)

/-- Settles O18: the state with the other memory meets the conditions of the same outcome, whose rule gives the same effect. -/
theorem onlyTheRegionMatters : Obligations.OnlyTheRegionMatters := by
  intro i s t m hm h
  obtain ⟨hhalt, rfl⟩ | ⟨hrun, hi, hneg, rfl⟩ | ⟨hrun, hi, k, hgap, rfl⟩ | ⟨hrun, k, rfl, rfl⟩ | ⟨hrun, rfl, rfl⟩ |
    ⟨hrun, b, rfl, rfl⟩ | ⟨hrun, rfl, rfl⟩ | ⟨hrun, xs, hkey, hdone⟩ := exec_cases h
  · exact exec_of_halted (s := t.setMem m) hhalt i
  · exact exec_of_lenNegative (s := s.setMem m) hi hrun hneg
  · exact exec_of_firstGap (s := s.setMem m) hi hrun (hm.firstGap hgap)
  · exact exec_tblrd_of_running (s := s.setMem m) k hrun
  · exact exec_crcclr_of_running (s := s.setMem m) hrun
  · exact exec_crcupd_of_running (s := s.setMem m) b hrun
  · exact exec_slotred_of_running (s := s.setMem m) hrun
  · have hkey' := hm.holdsKey hkey
    obtain ⟨rfl, rfl⟩ | ⟨rfl, rfl⟩ | ⟨rfl, rfl⟩ := hdone
    · exact exec_chksum_of_holdsKey (s := s.setMem m) hrun hkey'
    · rw [setWidth_ofBool]
      exact exec_tagext_of_holdsKey (s := s.setMem m) hrun hkey'
    · exact exec_keyslot_of_holdsKey (s := s.setMem m) hrun hkey'

/-- Settles O19: the region is that of the command the access issues, and the writes beside it land by
`Memory.byte?_storeAll` in the memory that the access left as it was. -/
theorem regionMustStayUnwritten : Obligations.RegionMustStayUnwritten := by
  refine ⟨State.inRegion_iff, fun s a during hd => ?refused, fun s a during hd => ?performed⟩
  case refused =>
    obtain ⟨c, -, hc, hrefused⟩ := performEvent_regionWritten hd
    exact ⟨c.1, hc, hrefused⟩
  case performed =>
    obtain ⟨t, ht⟩ := performAccess_completes s a
    obtain ⟨-, hmem, -⟩ := performAccess_frame ht
    refine ⟨t, ht, performEvent_access hd ht, fun x => ⟨fun hnone => ?_, fun b hb => ?_⟩⟩
    · rw [Memory.byte?_storeAll, hmem, hnone, Option.map_none]
    · rw [Memory.byte?_storeAll, hmem, hb, Option.map_some]

/-- Settles O20: the platform's memory is canonical and reads as its cells are listed. -/
theorem platformMemoryReadsAsListed : Obligations.PlatformMemoryReadsAsListed :=
  fun _ cells => ⟨Memory.ofCells cells, rfl, Memory.ofCells_wf cells, Memory.byte?_ofCells cells⟩

end Sys2Proof.Machine
end

section
/-! SUPPORT. Steps whose move is an access, the four moves that have a key command observed, and where a run stands after some
of its moves (20_memory.md R61; 70_reset_and_hazards.md R190, R191). -/

namespace Sys2Proof.Machine

/-- A step whose move is an access, with no write of another agent in its command's region, does what the access does; the other
agents' writes land after it (20_memory.md R67). -/
theorem step_of_access {s t : State} {a : Access} {during : List (Word × Byte)} {es : List Event}
    (hp : s.pending = .access a during :: es) (hd : ∀ c ∈ during, (s.setPending es).inRegion a c.1 = false)
    (h : performAccess (s.setPending es) a = .next t) : step s = .next (t.setMem (t.mem.storeAll during)) := by
  rw [step_of_pending_cons hp, performEvent_access hd h]

/-- With no such writes the step is the access and nothing more. -/
theorem step_of_access_alone {s t : State} {a : Access} {es : List Event} (hp : s.pending = .access a [] :: es)
    (h : performAccess (s.setPending es) a = .next t) : step s = .next t :=
  step_of_access hp (by simp) h

theorem run_succ_of_access {s t : State} {a : Access} {es : List Event} (k : Nat)
    (hp : s.pending = .access a [] :: es) (h : performAccess (s.setPending es) a = .next t) :
    core.run (k + 1) s = core.run k t :=
  run_succ_of_next k (step_of_access_alone hp h)

/-- A key command observed: the host writes ADDR and LEN, issues a command and reads RESULT (70_reset_and_hazards.md R191). -/
theorem run_keyCommand {s u : State} {a n w : Word} {i : Instr} {es : List Event} (hrun : s.halted = false)
    (hd : decode w = .ok i)
    (hp : s.pending = [.access (.wr 0x04#6 4 a) [], .access (.wr 0x08#6 4 n) [], .access (.wr 0x00#6 4 w) [],
      .access (.rd 0x10#6 4) []] ++ es)
    (hu : exec i { s with addr := a, len := n, pending := .access (.rd 0x10#6 4) [] :: es } = .next u) :
    core.run 4 s = .next ((u.setPending es).returnData u.result) := by
  have hlive : ({ s with addr := a, len := n, pending := .access (.rd 0x10#6 4) [] :: es } : State).halted = false := hrun
  have hpu : u.pending = .access (.rd 0x10#6 4) [] :: es := (exec_sameSurroundings hu).pending
  have hrd : (Access.rd 0x10#6 4).target = some .result := (Access.rd_target_eq_some_iff _ 4 .result).mpr (by decide)
  refine Eq.trans (run_succ_of_access 3 hp (performAccess_wr_offsetOf (r := .addr) rfl _ a)) ?_
  refine Eq.trans (run_succ_of_access 2 rfl (performAccess_wr_offsetOf (r := .len) rfl _ n)) ?_
  refine Eq.trans (run_succ_of_access 1 rfl ((performAccess_cmd_of_decode hlive hd).trans hu)) ?_
  exact run_succ_of_access 0 hpu (performAccess_rd hrd _)

/-- A run passes through the state after any number of its moves. -/
theorem exists_run_of_run_add {s t : State} {j k : Nat} (h : core.run (j + k) s = .next t) :
    ∃ u, core.run j s = .next u ∧ core.run k u = .next t := by
  induction j generalizing s with
  | zero => exact ⟨s, rfl, by rwa [Nat.zero_add] at h⟩
  | succ j ih =>
    rw [Nat.succ_add] at h
    obtain ⟨v, hstep, hrest⟩ := exists_step_of_run_succ h
    obtain ⟨u, hj, hk⟩ := ih hrest
    exact ⟨u, (run_succ_of_next j hstep).trans hj, hk⟩

/-- A run takes its moves from the front of those to come. -/
theorem run_pending {s t : State} {k : Nat} (h : core.run k s = .next t) : t.pending = s.pending.drop k := by
  induction k generalizing s with
  | zero =>
    obtain rfl := Host.Outcome.next.inj h
    rfl
  | succ k ih =>
    obtain ⟨u, hstep, hrest⟩ := exists_step_of_run_succ h
    rw [ih hrest, step_pending hstep, List.drop_tail]

end Sys2Proof.Machine
end

section
/-! The statements about steps and runs (20_memory.md section 6; 60_exceptions.md section 8; 70_reset_and_hazards.md section 5). -/

namespace Sys2Proof.Machine

/-- Settles O5: the step is the access, the access is the command, and no listed write lies in the region by
`State.inRegion_iff`. -/
theorem stepRunsTheDecodedCommand : Obligations.StepRunsTheDecodedCommand := by
  refine ⟨fun s w i es hp hrun hd => ?alone, fun s t w i es during hp hrun hd hoff h => ?beside⟩
  case alone =>
    obtain ⟨t, ht⟩ := exec_completes i (s.setPending es)
    rw [ht]
    exact step_of_access_alone hp ((performAccess_cmd_of_decode (s := s.setPending es) hrun hd).trans ht)
  case beside =>
    refine step_of_access hp (fun c hc => ?_) ((performAccess_cmd_of_decode (s := s.setPending es) hrun hd).trans h)
    by_contra hin
    obtain ⟨⟨v, j, ha, hj, hkey⟩, -, hneg, (hlo : s.addr.toNat ≤ c.1.toNat),
      (hhi : c.1.toNat < s.addr.toNat + s.keyLen)⟩ := (State.inRegion_iff _ _ _).mp (Bool.eq_true_of_not_eq_false hin)
    cases ha
    obtain rfl := Except.ok.inj (hd.symm.trans hj)
    have hside := hoff c hc hkey hneg
    omega

/-- Settles O6: a step performs the first of the moves to come, and there is none. -/
theorem idleStepChangesNothing : Obligations.IdleStepChangesNothing :=
  fun _ => step_of_pending_nil

/-- Settles O54: an access is refused only for a write in its command's region, and RESET and platform moves never are. -/
theorem everyMoveIsPerformed : Obligations.EveryMoveIsPerformed := by
  intro s
  cases hp : s.pending with
  | nil => exact .inl ⟨s, step_of_pending_nil hp⟩
  | cons e es =>
    rw [step_of_pending_cons hp]
    cases e with
    | access a during =>
      by_cases hd : ∃ c ∈ during, (s.setPending es).inRegion a c.1 = true
      · obtain ⟨c, hc, hin, hrefused⟩ := performEvent_regionWritten hd
        exact .inr ⟨a, during, es, c.1, rfl, hin, List.mem_map_of_mem hc, hrefused⟩
      · obtain ⟨t, ht⟩ := performAccess_completes (s.setPending es) a
        exact .inl ⟨_, performEvent_access (fun c hc => Bool.eq_false_of_not_eq_true fun hin => hd ⟨c, hc, hin⟩) ht⟩
    | reset => exact .inl ⟨_, rfl⟩
    | platform cells => exact .inl ⟨_, rfl⟩

/-- Settles O51: the run of `run_keyCommand` with CHKSUM and with KEYSLOT, whose effects on the key are known. -/
theorem checksumIsObserved : Obligations.ChecksumIsObserved := by
  intro s a n xs es hrun hkey
  refine ⟨fun hp => ?chksum, fun hp => ?keyslot⟩
  case chksum =>
    exact ⟨_, run_keyCommand hrun (by decide) hp (exec_chksum_of_holdsKey hrun hkey), hrun, rfl, rfl⟩
  case keyslot =>
    refine ⟨_, run_keyCommand hrun (by decide) hp (exec_keyslot_of_holdsKey hrun hkey), ?_, rfl, rfl⟩
    exact (State.writeSpan_halted _ (tagExtract xs).off (tagExtract xs).elen (tagExtract xs).tag).trans hrun

/-- Settles O55: a fault on the way would last to the end of the run, where FAULT = 0. -/
theorem goodRunsNeverFault : Obligations.GoodRunsNeverFault := by
  rintro es t ⟨hgood, hlive⟩ hreset j hj
  obtain ⟨k, hk⟩ := Nat.exists_eq_add_of_le hj
  obtain ⟨u, hu, hrest⟩ := exists_run_of_run_add (hk ▸ hgood)
  refine ⟨u, hu, Bool.eq_false_of_not_eq_true fun hhalt => ?_⟩
  have hno : .reset ∉ u.pending.take k := fun hmem => hreset <| by
    rw [run_pending hu] at hmem
    exact List.mem_of_mem_drop (List.mem_of_mem_take hmem)
  obtain ⟨hfault, -⟩ := run_keeps_halt hhalt hno hrest
  simp [hfault.halted, hhalt] at hlive

end Sys2Proof.Machine
end

section
/-! SUPPORT. The part of the window that no register stands in, the length as a signed number, and the words and lines of the
commands (10_state.md R26, R34; 30_encoding.md R79, R80). -/

namespace Sys2Proof.Machine

/-- Every register stands below the unmapped part of the window (10_state.md R23, R34). -/
theorem offsetOf_lt (r : Reg) : offsetOf r < 0x28#6 := by
  cases r <;> decide

/-- An access above the registers reaches none (10_state.md R34). -/
theorem Access.target_eq_none_of_unmapped {a : Access} (ho : 0x28#6 ≤ a.offset) : a.target = none := by
  refine Option.eq_none_iff_forall_ne_some.mpr fun r hr => ?_
  obtain ⟨-, hoffset, -⟩ := (a.target_eq_some_iff r).mp hr
  exact absurd ho (BitVec.not_le.mpr (hoffset ▸ offsetOf_lt r))

/-- RD of a readable register at its offset returns it (10_state.md R23). -/
theorem performAccess_rd_offsetOf {r : Reg} (hr : r ≠ .cmd) (s : State) :
    performAccess s (.rd (offsetOf r) 4) = .next (s.returnData (s.readReg r)) :=
  performAccess_rd ((Access.rd_target_eq_some_iff _ 4 r).mpr ⟨rfl, rfl, hr⟩) s

theorem State.lenNegative_eq_msb (s : State) : s.lenNegative = s.len.msb :=
  s.len.msb_eq_getLsbD_last.symm

/-- LEN[30:0] as the remainder of LEN (10_state.md R26). -/
theorem State.keyLen_eq_mod (s : State) : s.keyLen = s.len.toNat % 2 ^ 31 := by
  rw [State.keyLen, BitVec.extractLsb'_toNat, Nat.shiftRight_zero]

/-- A LEN that is not negative is the length used (10_state.md R26). -/
theorem State.keyLen_eq_toInt {s : State} (hneg : s.lenNegative = false) : (s.keyLen : Int) = s.len.toInt := by
  rw [State.lenNegative_eq_msb] at hneg
  have hsmall : s.len.toNat < 2 ^ 31 := BitVec.toNat_lt_of_msb_false hneg
  rw [State.keyLen_eq_mod, Nat.mod_eq_of_lt hsmall, BitVec.toInt_eq_toNat_of_msb hneg]

/-- The word of TBLRD (30_encoding.md R79). -/
theorem encode_tblrd (b : Byte) : encode (.tblrd b) = 0x01000000#32 ||| b.setWidth 32 := by
  simp [encode, opcOf, imm8Of]

/-- An operand of 256 or more is an assembly error (30_encoding.md R79). -/
theorem immLine_of_ge {n : Nat} (hn : 256 ≤ n) (f : Byte → Instr) : immLine f n = none := by
  simp [immLine, imm8Legal, hn]

/-- The offsets an assembler line can name are those of the window (10_state.md R34; log 11). -/
theorem offsetLegal_of_ge {n : Nat} (hn : 64 ≤ n) : offsetLegal n = false := by
  simp [offsetLegal, hn]

end Sys2Proof.Machine
end

section
/-! The statements about the window, LEN, the decode vectors, command lines and what RESET leaves (10_state.md section 3;
30_encoding.md section 6; 70_reset_and_hazards.md section 1). -/

namespace Sys2Proof.Machine

/-- Settles O8: no register stands there, so each access is illegal and raises BUS. -/
theorem unmappedOffsetsAreIllegal : Obligations.UnmappedOffsetsAreIllegal := by
  intro s o n w ho
  have hrd : (Access.rd o n).target = none := Access.target_eq_none_of_unmapped ho
  have hwr : (Access.wr o n w).target = none := Access.target_eq_none_of_unmapped ho
  refine ⟨hrd, hwr, fun hrun => ⟨?rd, ?wr⟩⟩
  case rd => rw [performAccess_illegal hrd, State.illegalAccess_rd, if_neg (by simp [hrun])]
  case wr => rw [performAccess_illegal hwr, State.illegalAccess, State.raise_eq_faulted hrun]

/-- Settles O9: each is the legal RD of its register. -/
theorem readsReturnTheRegisters : Obligations.ReadsReturnTheRegisters := by
  intro s
  have hrd := fun (r : Reg) (hr : r ≠ .cmd) => performAccess_rd_offsetOf hr s
  exact ⟨hrd .addr nofun, hrd .len nofun, hrd .crc nofun, hrd .result nofun, hrd .ekoff nofun, hrd .eklen nofun,
    hrd .finfo nofun⟩

/-- Settles O10: the word returned is STATUS with its reserved bits cleared. -/
theorem statusReadShowsItsFields : Obligations.StatusReadShowsItsFields := by
  intro s
  refine ⟨statusRead s.status, performAccess_rd_offsetOf (r := .status) nofun s, statusFault_read _, statusTag_read _,
    statusCause_read _, fun j hj => ?reserved⟩
  case reserved =>
    rw [statusRead_getLsbD]
    obtain rfl | rfl | hj := hj
    · rfl
    · rfl
    · simp [Nat.not_lt.mpr hj, show ¬ j < 2 by omega]

/-- Settles O12: LEN[31] is the sign bit, and LEN[30:0] is LEN where that bit is 0. -/
theorem lengthIsTwosComplement : Obligations.LengthIsTwosComplement := by
  intro s
  refine ⟨?sign, State.keyLen_eq_toInt, ?bound⟩
  case sign => rw [State.lenNegative_eq_msb, BitVec.msb_eq_toInt, decide_eq_true_iff]
  case bound => exact Nat.le_sub_one_of_lt (s.len.extractLsb' 0 31).isLt

/-- Settles O4: by computation, the fifteen words being given. -/
theorem wordsOfTheSpecDecode : Obligations.WordsOfTheSpecDecode := by
  unfold Obligations.WordsOfTheSpecDecode
  decide

/-- Settles O57: an operand in range is a byte and gives the CMD write of its command's word, and a number out of range gives
no line. -/
theorem commandLinesEncode : Obligations.CommandLinesEncode := by
  refine ⟨fun b => ⟨?tblrd, ?crcupd⟩, fun n hn => ⟨immLine_of_ge hn _, immLine_of_ge hn _⟩, fun n imm hn => ⟨?wr, ?rd⟩,
    rfl, rfl, rfl, rfl, rfl, rfl⟩
  case tblrd => rw [Line.expand, immLine_toNat, commandLine, cmdWrite, encode_tblrd]
  case crcupd => rw [Line.expand, immLine_toNat, commandLine, cmdWrite, encode_crcupd]
  case wr => simp [Line.expand, writeLine, offsetLegal_of_ge hn]
  case rd => simp [Line.expand, readLine, offsetLegal_of_ge hn]

/-- Settles O58: RESET answers `State.resetCore`, which keeps the three. -/
theorem resetLeavesTheSurroundings : Obligations.ResetLeavesTheSurroundings :=
  fun s => ⟨s.resetCore, rfl, s.resetCore_mem, s.resetCore_pending, s.resetCore_reads⟩

end Sys2Proof.Machine
end
